-- ==== Sys2Proof/Word.lean ====
section
/-! DEFINITION. The bit strings every other file uses: the register code and the widest register view. -/

namespace Sys2Proof

/-- A register code: the six bits of the Binary columns (R101). -/
abbrev Code := BitVec 6

/-- A bit string as wide as the widest register view, 512 bits (R42): what travels between a
storage cell and an operand, narrower views in its low-order bits. -/
abbrev Wide := BitVec 512

end Sys2Proof
end

