-- ==== Sys2Proof/Config.lean ====
section
/-! DEFINITION. What the source fixes (R7), what it leaves to the implementation (R8), and the free
values. A constant without a body is uninterpreted: nothing in Lean can find out its value. -/

namespace Sys2Proof

/-- Which numbers stand for an arbitrary-precision value, 0 apart: uninterpreted, so that the domain
`APValue` is an argument of the model (R8) of which neither the size nor the finiteness is known. -/
opaque Config.isApToken : Nat → Bool

/-- The value domain of the arbitrary-precision registers F48 to F63 (R8, R40, width "Variable"): the
tokens of an uninterpreted set that is not empty, its one known member named 0. No definition of the
model looks inside one (log entry 6). -/
structure APValue where
  token : Nat
  isValue : token = 0 ∨ Config.isApToken token = true
deriving DecidableEq, Repr

/-- The member of the domain that is known to be there. -/
def APValue.base : APValue := ⟨0, .inl rfl⟩

/-- `FP_ALIAS_ROWS` (R8, R37): how many rows of F, D and Q share storage. -/
inductive FpAliasRows where
  | rows8
  | rows16
deriving DecidableEq, Repr, Inhabited

/-- `VEC_ALIAS_ROWS` (R8, R45): how many rows of the vector alias table share storage; it has one
value, 4, as the table is written. -/
inductive VecAliasRows where
  | rows4
deriving DecidableEq, Repr, Inhabited

/-- `SPR_GPR_ALIAS` (R8, R54): whether SPR SP, LR and FP are registers of their own (none) or the
GPRs R2, R1 and R8. -/
inductive SprGprAlias where
  | separate
  | shared
deriving DecidableEq, Repr, Inhabited

/-- The two treatments R73 allows for a read of an unspecified bit: the fault `UnspecifiedRead`, or
a draw, a free value taken afresh at each read (log entry 4). -/
inductive UnspecifiedRead where
  | fault
  | draw
deriving DecidableEq, Repr, Inhabited

/-- `BYTE_ORDER` (R8, R82): open in the spec, and read by no rule, since the spec has no memory. That its
values are these two, so that a mixed order has none, is the model's choice (DESIGN CHOICE, log entry 21):
the spec names no byte order. -/
inductive ByteOrder where
  | little
  | big
deriving DecidableEq, Repr, Inhabited

/-- The parameters of R8, fixed for one machine. They stand in State so that a statement about
every state is a statement about every value of every parameter; no operation changes one. -/
structure Params where
  /-- `PC_VALUE`: what SPR PC reads as (R53). -/
  pcValue : BitVec 64
  /-- `CORE_ID_VALUE`: what SPR CORE_ID reads as (R55). -/
  coreIdValue : BitVec 32
  /-- `THREAD_ID_VALUE`: what SPR THREAD_ID reads as (R56). -/
  threadIdValue : BitVec 32
  /-- `CORE_COUNT`: CONFIG[23:16] (R60). -/
  coreCount : BitVec 8
  /-- `THREAD_COUNT`: CONFIG[31:24] (R60). -/
  threadCount : BitVec 8
  /-- `CACHE_SIZE`: CONFIG[47:32] (R60). -/
  cacheSize : BitVec 16
  /-- `MEMORY_SIZE`: CONFIG[63:48] (R60). -/
  memorySize : BitVec 16
  /-- `FEATURES_VALUE`: what SPR FEATURES reads as (R62). -/
  featuresValue : BitVec 64
  /-- `FP_ALIAS_ROWS` (R37). -/
  fpAliasRows : FpAliasRows
  /-- `VEC_ALIAS_ROWS` (R45). -/
  vecAliasRows : VecAliasRows
  /-- `SPR_GPR_ALIAS` (R54). -/
  sprGprAlias : SprGprAlias
  /-- Which of R73's two treatments of an unspecified bit this machine takes. -/
  unspecifiedRead : UnspecifiedRead
  /-- `BYTE_ORDER` (R82): read by no rule; its two values are the model's choice (log entry 21). -/
  byteOrder : ByteOrder
  /-- The named premise `SprAccessPermitted` (R148): read by no rule, taken by claims. -/
  sprAccessPermitted : Bool
deriving DecidableEq, Repr

/-! ### Parameters the source gives no value (R8) -/

opaque Config.pcValue : BitVec 64
opaque Config.coreIdValue : BitVec 32
opaque Config.threadIdValue : BitVec 32
opaque Config.coreCount : BitVec 8
opaque Config.threadCount : BitVec 8
opaque Config.cacheSize : BitVec 16
opaque Config.memorySize : BitVec 16
opaque Config.featuresValue : BitVec 64
opaque Config.byteOrder : ByteOrder
opaque Config.sprAccessPermitted : Bool

/-- The parameters of the machine that `State.reset` starts: the spec's choice where it makes one
(8 and 4 alias rows R37, R45, no SPR and GPR alias R54), R73's draw (log entry 4), the rest uninterpreted. -/
def Config.params : Params where
  pcValue := Config.pcValue
  coreIdValue := Config.coreIdValue
  threadIdValue := Config.threadIdValue
  coreCount := Config.coreCount
  threadCount := Config.threadCount
  cacheSize := Config.cacheSize
  memorySize := Config.memorySize
  featuresValue := Config.featuresValue
  fpAliasRows := .rows8
  vecAliasRows := .rows4
  sprGprAlias := .separate
  unspecifiedRead := .draw
  byteOrder := Config.byteOrder
  sprAccessPermitted := Config.sprAccessPermitted

/-! ### Free values (R13 `draw_N()`, log entry 5) -/

/-- The n-th draw of bits; a narrower draw is its low-order bits. -/
opaque Config.freeBits : Nat → Wide

/-- The number behind the n-th draw of an arbitrary-precision value. -/
opaque Config.freeApToken : Nat → Nat

/-- The n-th draw of an arbitrary-precision value: any member of the domain. -/
def Config.freeAp (n : Nat) : APValue :=
  if h : Config.isApToken (Config.freeApToken n) = true then ⟨Config.freeApToken n, .inr h⟩
  else APValue.base

/-! ### Parameters fixed by the source (R7) -/

def Config.numGpr : Nat := 64
def Config.numFpr : Nat := 64
def Config.numVr : Nat := 32
def Config.numSpr : Nat := 16
def Config.totalRegs : Nat := 176
def Config.baseWidth : Nat := 64
def Config.specBits : Nat := 6
def Config.vrElementWidth : Nat := 32

end Sys2Proof
end

