-- ==== Sys2Proof/Syntax.lean ====
section
/-! DEFINITION. The operations, their operands, the names of the registers and the descriptors in
which a program is written down. -/

namespace Sys2Proof

/-- The register file a designator names (R14): `R`, `F`, `V`, `S` in the spec's text. -/
inductive RegFile where
  | gpr
  | fpr
  | vr
  | spr
deriving DecidableEq, Repr

/-- A register designator: the pair (file, code) of R14. -/
structure Designator where
  file : RegFile
  code : Code
deriving DecidableEq, Repr

/-- The width of a view (R69): a number of bits, or `APValue`, which is no bit width. -/
inductive ViewWidth where
  | bits (w : Nat)
  | ap
deriving DecidableEq, Repr

/-- A value with its width (R11), or an arbitrary-precision value (R40). -/
inductive Value where
  | bits (w : Nat) (v : BitVec w)
  | ap (v : APValue)
deriving DecidableEq, Repr

/-- The width a value carries. -/
def Value.width : Value → ViewWidth
  | .bits w _ => .bits w
  | .ap _ => .ap

/-- The operations: the eight access patterns of R108, one constructor for each row of the table. -/
inductive Instr where
  | read1 (d1 : Designator)
  | read2 (d1 d2 : Designator)
  | read3 (d1 d2 d3 : Designator)
  | read4 (d1 d2 d3 d4 : Designator)
  | write1 (d1 : Designator) (v1 : Value)
  | write2 (d1 : Designator) (v1 : Value) (d2 : Designator) (v2 : Value)
  | write3 (d1 : Designator) (v1 : Value) (d2 : Designator) (v2 : Value) (d3 : Designator) (v3 : Value)
  | write4 (d1 : Designator) (v1 : Value) (d2 : Designator) (v2 : Value) (d3 : Designator) (v3 : Value) (d4 : Designator) (v4 : Value)
deriving DecidableEq, Repr

/-! ### Descriptors and programs (R109, R114) -/

/-- The mnemonic of a descriptor (R108). -/
inductive Mnemonic where
  | READ1
  | READ2
  | READ3
  | READ4
  | WRITE1
  | WRITE2
  | WRITE3
  | WRITE4
deriving DecidableEq, Repr

/-- A string of bits with its length; bit 0 is the least significant, so the first operand's code,
which stands leftmost, is in the top bits (R10, R109). -/
structure BitString where
  length : Nat
  bits : BitVec length
deriving DecidableEq, Repr

/-- A descriptor (R109): the mnemonic, a file letter for each operand, the codes as one bit string,
and the values of a WRITE, which have no encoding (R107). -/
structure Descriptor where
  mnemonic : Mnemonic
  files : List RegFile
  codes : BitString
  values : List Value
deriving DecidableEq, Repr

/-- Why a descriptor is no operation. -/
inductive DecodeError where
  /-- The bit string is not six bits for each operand of the mnemonic. -/
  | codeLength
  /-- The number of file letters is not the number of operands of the mnemonic. -/
  | fileCount
  /-- The number of values is not the number of operands of a WRITE, or a READ carries values. -/
  | valueCount
deriving DecidableEq, Repr

/-- The value of an operand as a program writes it (R114): a literal, or `$k.j`, the j-th result of
the k-th operation of the program, both counted from 1. -/
inductive ValueExpr where
  | literal (v : Value)
  | result (k j : Nat)
deriving DecidableEq, Repr

/-- One operation of a program (R15, R114): a descriptor whose values may be `$k.j`. -/
structure ProgramLine where
  mnemonic : Mnemonic
  files : List RegFile
  codes : BitString
  values : List ValueExpr
deriving DecidableEq, Repr

/-! ### Names of the registers (R25 to R28, R33 to R36, R43, R44, R51, R112) -/

/-- The names of the GPRs, from the Name columns of R25 to R28. -/
inductive GprName where
  | zero
  | ra
  | sp
  | gp
  | tp
  | t (i : Fin 7)
  | s (i : Fin 6)
  | a (i : Fin 14)
  | addr (i : Fin 16)
  | tmp (i : Fin 16)
deriving DecidableEq, Repr

/-- The names of the SPRs, in the order of their codes (R51). -/
inductive SprName where
  | pc
  | sp
  | fp
  | lr
  | flags
  | coreId
  | threadId
  | priority
  | config
  | features
  | cacheCtrl
  | powerCtrl
  | reserved (i : Fin 4)
deriving DecidableEq, Repr

/-- What may stand for a register in an operation (R114): a number name, a name, `SPR.<name>` or the
pair (file, code). An unqualified `SP` is the GPR name (R113). -/
inductive RegName where
  | r (i : Fin 64)
  | gpr (n : GprName)
  | f (i : Fin 64)
  | d (i : Fin 16)
  | q (i : Fin 16)
  | ap (i : Fin 16)
  | v (i : Fin 32)
  | spr (n : SprName)
  | pair (file : RegFile) (code : Code)
deriving DecidableEq, Repr

/-- The four groups of sixteen GPRs (R24). -/
inductive GprGroup where
  | integer
  | extendedInteger
  | address
  | temporary
deriving DecidableEq, Repr

/-- The Usage column of the GPR tables (R25 to R28, R31); nothing enforces a usage. -/
inductive GprUsage where
  | constantZero
  | functionReturn
  | stackOperations
  | globalDataAccess
  | threadLocalStorage
  | generalPurpose
  | calleeSaved
  | functionArguments
  | memoryAddressing
deriving DecidableEq, Repr

end Sys2Proof
end

