-- ==== Sys2Proof/Machine/Operands.lean ====
section
/-! DEFINITION. The operand forms: which designators name a register, the width of a view, the
storage cell behind a designator, when two designators overlap, and the names of the registers. -/

namespace Sys2Proof

/-! ### Validity and width (R69) -/

/-- Whether a designator names a register an operation may use (R69): every GPR and FPR code, VR
codes to 31 (R49), SPR codes to 11 (R52, R65). -/
def Designator.valid (d : Designator) : Bool :=
  match d.file with
  | .gpr => true
  | .fpr => true
  | .vr => decide (d.code.toNat ≤ 31)
  | .spr => decide (d.code.toNat ≤ 11)

/-- The width of an FPR view by its code (R32, R69). -/
def fprWidth (c : Code) : ViewWidth :=
  if c.toNat ≤ 15 then .bits 32
  else if c.toNat ≤ 31 then .bits 64
  else if c.toNat ≤ 47 then .bits 128
  else .ap

/-- The width of a VR view by its code (R42, R69). -/
def vrWidth (c : Code) : Nat :=
  if c.toNat ≤ 15 then 512
  else if c.toNat ≤ 23 then 256
  else if c.toNat ≤ 27 then 128
  else 64

/-- The width of an SPR view by its code (R51, R69). -/
def sprWidth (c : Code) : Nat :=
  if c.toNat = 5 ∨ c.toNat = 6 then 32
  else if c.toNat = 7 then 8
  else 64

/-- The width of the view a designator names (R69). -/
def Designator.width (d : Designator) : ViewWidth :=
  match d.file with
  | .gpr => .bits 64
  | .fpr => fprWidth d.code
  | .vr => .bits (vrWidth d.code)
  | .spr => .bits (sprWidth d.code)

/-- A view's number of bits; an `APValue` has none. -/
def ViewWidth.size : ViewWidth → Nat
  | .bits w => w
  | .ap => 0

/-! ### Storage cells (R23, R72) -/

/-- A storage cell of R23, or an SPR that has none (R53 to R65). The indexes count each group of
cells from 0: `g i` is `G[i+1]`, `fs i`, `fd i`, `fq i` are `FS[i+8]`, `FD[i+8]`, `FQ[i+8]`, `vw i` is
`VW[i+4]` and `vh i` is `VH[i+4]`. -/
inductive Loc where
  | g (i : Fin 63)
  | pf (i : Fin 8)
  | fs (i : Fin 8)
  | fd (i : Fin 8)
  | fq (i : Fin 8)
  | ap (i : Fin 16)
  | pv (j : Fin 4)
  | vw (j : Fin 12)
  | vh (j : Fin 4)
  | sp
  | fp
  | lr
  | flags
  | priority
  | config
  | spr (c : Code)
deriving DecidableEq, Repr

/-- The width of a cell (R23); an `APValue` and an SPR without storage count no bits. -/
def Loc.width : Loc → Nat
  | .g _ => 64
  | .pf _ => 128
  | .fs _ => 32
  | .fd _ => 64
  | .fq _ => 128
  | .ap _ => 0
  | .pv _ => 512
  | .vw _ => 512
  | .vh _ => 256
  | .sp => 64
  | .fp => 64
  | .lr => 64
  | .flags => 16
  | .priority => 8
  | .config => 8
  | .spr _ => 0

/-- The number of an arbitrary-precision cell; none for a cell of bits (R40). -/
def Loc.apIndex : Loc → Option (Fin 16)
  | .g _ => none
  | .pf _ => none
  | .fs _ => none
  | .fd _ => none
  | .fq _ => none
  | .ap i => some i
  | .pv _ => none
  | .vw _ => none
  | .vh _ => none
  | .sp => none
  | .fp => none
  | .lr => none
  | .flags => none
  | .priority => none
  | .config => none
  | .spr _ => none

/-- The cell of a GPR code (R72): none for R0, which has no storage (R29). -/
def gprLoc (c : Code) : Option Loc :=
  if h : c.toNat = 0 then none else some (.g ⟨c.toNat - 1, by have := c.isLt; omega⟩)

/-- The cell of row i of F, D or Q (group 0, 1, 2), as the number of aliased rows says (R37, R72).
With 16 rows the 128-bit cells of rows 8 to 15 are shared too. -/
def fprRowLoc (rows : FpAliasRows) (group : Nat) (i : Fin 16) : Loc :=
  if h : i.val < 8 then .pf ⟨i.val, h⟩
  else
    let k : Fin 8 := ⟨i.val - 8, by omega⟩
    match rows with
    | .rows16 => .fq k
    | .rows8 => if group = 0 then .fs k else if group = 1 then .fd k else .fq k

/-- The cell of an FPR code (R72). -/
def fprLoc (p : Params) (c : Code) : Loc :=
  let i : Fin 16 := ⟨c.toNat % 16, Nat.mod_lt _ (by decide)⟩
  if c.toNat / 16 = 3 then .ap i else fprRowLoc p.fpAliasRows (c.toNat / 16) i

/-- The cell of a VR code, as the number of aliased rows says (R45, R46, R72); none for the codes that
name no register (R49). -/
def vrLoc (rows : VecAliasRows) (c : Code) : Option Loc :=
  match rows with
  | .rows4 =>
    if h : c.toNat < 4 then some (.pv ⟨c.toNat, h⟩)
    else if h : c.toNat < 16 then some (.vw ⟨c.toNat - 4, by omega⟩)
    else if h : c.toNat < 20 then some (.pv ⟨c.toNat - 16, by omega⟩)
    else if h : c.toNat < 24 then some (.vh ⟨c.toNat - 20, by omega⟩)
    else if h : c.toNat < 28 then some (.pv ⟨c.toNat - 24, by omega⟩)
    else if h : c.toNat < 32 then some (.pv ⟨c.toNat - 28, by omega⟩)
    else none

/-- The cell of an SPR code (R23, R53 to R65): SP, FP and LR are the GPRs R2, R8 and R1 where
`SPR_GPR_ALIAS` says so (R54); an SPR without storage is its own place, so that two operands that
name it overlap (R72). -/
def sprLoc (p : Params) (c : Code) : Loc :=
  match c.toNat with
  | 1 => match p.sprGprAlias with
    | .separate => .sp
    | .shared => .g 1
  | 2 => match p.sprGprAlias with
    | .separate => .fp
    | .shared => .g 7
  | 3 => match p.sprGprAlias with
    | .separate => .lr
    | .shared => .g 0
  | 4 => .flags
  | 7 => .priority
  | 8 => .config
  | _ => .spr c

/-- The cell behind a designator (R72); none for R0 and for a VR code that names no register. -/
def Designator.loc (p : Params) (d : Designator) : Option Loc :=
  match d.file with
  | .gpr => gprLoc d.code
  | .fpr => some (fprLoc p d.code)
  | .vr => vrLoc p.vecAliasRows d.code
  | .spr => some (sprLoc p d.code)

/-- Two designators overlap when both are valid and they have one cell, or both name the same SPR;
R0 overlaps nothing (R72). -/
def Designator.overlap (p : Params) (d e : Designator) : Bool :=
  d.valid && e.valid && (d.loc p).isSome && decide (d.loc p = e.loc p)

/-! ### Elements of a vector register (R42, R48) -/

/-- How many 32-bit elements a vector view of w bits holds (R42). -/
def elementCount (w : Nat) : Nat := w / Config.vrElementWidth

/-- Element k of a vector value: its bits 32k to 32k + 31 (R48). -/
def element {w : Nat} (v : BitVec w) (k : Nat) : BitVec 32 := v.extractLsb' (32 * k) 32

/-! ### Names (R25 to R28, R51, R112, R113) -/

/-- The code of a GPR name (R25 to R28). -/
def GprName.number : GprName → Nat
  | .zero => 0
  | .ra => 1
  | .sp => 2
  | .gp => 3
  | .tp => 4
  | .t i => if i.val ≤ 2 then 5 + i.val else 13 + i.val
  | .s i => if i.val ≤ 1 then 8 + i.val else 18 + i.val
  | .a i => if i.val ≤ 5 then 10 + i.val else 18 + i.val
  | .addr i => 32 + i.val
  | .tmp i => 48 + i.val

/-- The usage of a GPR name (R25 to R28, R31). -/
def GprName.usage : GprName → GprUsage
  | .zero => .constantZero
  | .ra => .functionReturn
  | .sp => .stackOperations
  | .gp => .globalDataAccess
  | .tp => .threadLocalStorage
  | .t _ => .generalPurpose
  | .s _ => .calleeSaved
  | .a _ => .functionArguments
  | .addr _ => .memoryAddressing
  | .tmp _ => .generalPurpose

/-- The group of sixteen a GPR code falls in (R24). -/
def gprGroup (c : Code) : GprGroup :=
  match c.toNat / 16 with
  | 0 => .integer
  | 1 => .extendedInteger
  | 2 => .address
  | _ => .temporary

/-- The code of an SPR name (R51). -/
def SprName.number : SprName → Nat
  | .pc => 0
  | .sp => 1
  | .fp => 2
  | .lr => 3
  | .flags => 4
  | .coreId => 5
  | .threadId => 6
  | .priority => 7
  | .config => 8
  | .features => 9
  | .cacheCtrl => 10
  | .powerCtrl => 11
  | .reserved i => 12 + i.val

/-- The register a name stands for (R101, R112, R114): Di is F(16+i), Qi is F(32+i), APi is F(48+i)
(R32), ADDRi is R(32+i) (R30). -/
def RegName.designator : RegName → Designator
  | .r i => ⟨.gpr, BitVec.ofNat 6 i.val⟩
  | .gpr n => ⟨.gpr, BitVec.ofNat 6 n.number⟩
  | .f i => ⟨.fpr, BitVec.ofNat 6 i.val⟩
  | .d i => ⟨.fpr, BitVec.ofNat 6 (16 + i.val)⟩
  | .q i => ⟨.fpr, BitVec.ofNat 6 (32 + i.val)⟩
  | .ap i => ⟨.fpr, BitVec.ofNat 6 (48 + i.val)⟩
  | .v i => ⟨.vr, BitVec.ofNat 6 i.val⟩
  | .spr n => ⟨.spr, BitVec.ofNat 6 n.number⟩
  | .pair file code => ⟨file, code⟩

end Sys2Proof
end

