-- ==== Sys2Proof/WellFormed.lean ====
section
/-! DEFINITION. What can be checked of an operation before it meets a state. -/

namespace Sys2Proof

/-- The designators of an operation, first operand first. -/
def Instr.designators : Instr → List Designator
  | .read1 d1 => [d1]
  | .read2 d1 d2 => [d1, d2]
  | .read3 d1 d2 d3 => [d1, d2, d3]
  | .read4 d1 d2 d3 d4 => [d1, d2, d3, d4]
  | .write1 d1 _ => [d1]
  | .write2 d1 _ d2 _ => [d1, d2]
  | .write3 d1 _ d2 _ d3 _ => [d1, d2, d3]
  | .write4 d1 _ d2 _ d3 _ d4 _ => [d1, d2, d3, d4]

/-- The pairs an operation writes, first operand first; none for a READ. -/
def Instr.writes : Instr → List (Designator × Value)
  | .read1 _ => []
  | .read2 _ _ => []
  | .read3 _ _ _ => []
  | .read4 _ _ _ _ => []
  | .write1 d1 v1 => [(d1, v1)]
  | .write2 d1 v1 d2 v2 => [(d1, v1), (d2, v2)]
  | .write3 d1 v1 d2 v2 d3 v3 => [(d1, v1), (d2, v2), (d3, v3)]
  | .write4 d1 v1 d2 v2 d3 v3 d4 v4 => [(d1, v1), (d2, v2), (d3, v3), (d4, v4)]

/-- Every designator names a register (R69): stage 1 of R120 and R130. -/
def Instr.designatorsValid (i : Instr) : Bool := i.designators.all Designator.valid

/-- Every value has the width of the view it is written to (R71): stage 2 of R130. -/
def Instr.widthsMatch (i : Instr) : Bool := i.writes.all fun w => decide (w.2.width = w.1.width)

/-- No two designators of a WRITE overlap, whatever the parameters are (R72): stage 3 of R130 for
the parameters `p`. -/
def Instr.writesDisjoint (p : Params) (i : Instr) : Bool :=
  decide (i.writes.Pairwise fun a b => a.1.overlap p b.1 = false)

/-- An operation every operand of which names a register and has a value of its width. -/
def Instr.wellFormed (i : Instr) : Bool := i.designatorsValid && i.widthsMatch

end Sys2Proof
end

