-- ==== Sys2Proof/Decode.lean ====
section
/-! DEFINITION. Descriptors (R109): decoding, total and rejecting by name, and the encoder. The bit
string of a descriptor is the operands' codes, first operand leftmost; the mnemonic, the file letters
and the values stand beside it and are no part of it. -/

namespace Sys2Proof

/-- The code of operand k (from 0) of n: the six bits at 6(n - 1 - k) (R109). -/
def codeAt (n k : Nat) (s : BitString) : Code := s.bits.extractLsb' (6 * (n - 1 - k)) 6

/-- An operation, where its bit string has the length its operands take (R109). -/
def ofLength (n : Nat) (s : BitString) (i : Instr) : Except DecodeError Instr :=
  if s.length = n then .ok i else .error .codeLength

/-- The operation a descriptor stands for (R108, R109): the mnemonic says how many operands there
are, and each operand takes a file letter, six bits of the bit string and, in a WRITE, a value. -/
def decode (d : Descriptor) : Except DecodeError Instr :=
  let s := d.codes
  match d.mnemonic with
  | .READ1 => match d.files, d.values with
    | [f1], [] => ofLength 6 s (.read1 ⟨f1, codeAt 1 0 s⟩)
    | [_], _ => .error .valueCount
    | _, _ => .error .fileCount
  | .READ2 => match d.files, d.values with
    | [f1, f2], [] => ofLength 12 s (.read2 ⟨f1, codeAt 2 0 s⟩ ⟨f2, codeAt 2 1 s⟩)
    | [_, _], _ => .error .valueCount
    | _, _ => .error .fileCount
  | .READ3 => match d.files, d.values with
    | [f1, f2, f3], [] => ofLength 18 s (.read3 ⟨f1, codeAt 3 0 s⟩ ⟨f2, codeAt 3 1 s⟩ ⟨f3, codeAt 3 2 s⟩)
    | [_, _, _], _ => .error .valueCount
    | _, _ => .error .fileCount
  | .READ4 => match d.files, d.values with
    | [f1, f2, f3, f4], [] =>
      ofLength 24 s (.read4 ⟨f1, codeAt 4 0 s⟩ ⟨f2, codeAt 4 1 s⟩ ⟨f3, codeAt 4 2 s⟩ ⟨f4, codeAt 4 3 s⟩)
    | [_, _, _, _], _ => .error .valueCount
    | _, _ => .error .fileCount
  | .WRITE1 => match d.files, d.values with
    | [f1], [v1] => ofLength 6 s (.write1 ⟨f1, codeAt 1 0 s⟩ v1)
    | [_], _ => .error .valueCount
    | _, _ => .error .fileCount
  | .WRITE2 => match d.files, d.values with
    | [f1, f2], [v1, v2] => ofLength 12 s (.write2 ⟨f1, codeAt 2 0 s⟩ v1 ⟨f2, codeAt 2 1 s⟩ v2)
    | [_, _], _ => .error .valueCount
    | _, _ => .error .fileCount
  | .WRITE3 => match d.files, d.values with
    | [f1, f2, f3], [v1, v2, v3] =>
      ofLength 18 s (.write3 ⟨f1, codeAt 3 0 s⟩ v1 ⟨f2, codeAt 3 1 s⟩ v2 ⟨f3, codeAt 3 2 s⟩ v3)
    | [_, _, _], _ => .error .valueCount
    | _, _ => .error .fileCount
  | .WRITE4 => match d.files, d.values with
    | [f1, f2, f3, f4], [v1, v2, v3, v4] =>
      ofLength 24 s (.write4 ⟨f1, codeAt 4 0 s⟩ v1 ⟨f2, codeAt 4 1 s⟩ v2 ⟨f3, codeAt 4 2 s⟩ v3 ⟨f4, codeAt 4 3 s⟩ v4)
    | [_, _, _, _], _ => .error .valueCount
    | _, _ => .error .fileCount

/-! ### The encoder -/

/-- One operand's codes (descriptor `aaaaaa`, R121). -/
def codes1 (d1 : Designator) : BitString := ⟨6, d1.code⟩

/-- Two operands' codes (descriptor `aaaaaabbbbbb`, R122). -/
def codes2 (d1 d2 : Designator) : BitString := ⟨12, d1.code ++ d2.code⟩

/-- Three operands' codes (descriptor `aaaaaabbbbbbcccccc`, R123). -/
def codes3 (d1 d2 d3 : Designator) : BitString := ⟨18, d1.code ++ d2.code ++ d3.code⟩

/-- Four operands' codes (descriptor `aaaaaabbbbbbccccccdddddd`, R124). -/
def codes4 (d1 d2 d3 d4 : Designator) : BitString := ⟨24, d1.code ++ d2.code ++ d3.code ++ d4.code⟩

/-- The descriptor of an operation (R109). -/
def encode : Instr → Descriptor
  | .read1 d1 => ⟨.READ1, [d1.file], codes1 d1, []⟩
  | .read2 d1 d2 => ⟨.READ2, [d1.file, d2.file], codes2 d1 d2, []⟩
  | .read3 d1 d2 d3 => ⟨.READ3, [d1.file, d2.file, d3.file], codes3 d1 d2 d3, []⟩
  | .read4 d1 d2 d3 d4 => ⟨.READ4, [d1.file, d2.file, d3.file, d4.file], codes4 d1 d2 d3 d4, []⟩
  | .write1 d1 v1 => ⟨.WRITE1, [d1.file], codes1 d1, [v1]⟩
  | .write2 d1 v1 d2 v2 => ⟨.WRITE2, [d1.file, d2.file], codes2 d1 d2, [v1, v2]⟩
  | .write3 d1 v1 d2 v2 d3 v3 => ⟨.WRITE3, [d1.file, d2.file, d3.file], codes3 d1 d2 d3, [v1, v2, v3]⟩
  | .write4 d1 v1 d2 v2 d3 v3 d4 v4 =>
    ⟨.WRITE4, [d1.file, d2.file, d3.file, d4.file], codes4 d1 d2 d3 d4, [v1, v2, v3, v4]⟩

/-! ### A program's line, and a word of the table -/

/-- The value an operand of a program stands for, from the results of the operations already run
(R114): `$k.j` is the j-th result of the k-th operation, both counted from 1. -/
def ValueExpr.resolve (results : List (List Value)) : ValueExpr → Option Value
  | .literal v => some v
  | .result 0 _ => none
  | .result _ 0 => none
  | .result (k + 1) (j + 1) => (results[k]?).bind fun r => r[j]?

/-- The values of a line, none if one `$k.j` names no result. -/
def resolveAll (results : List (List Value)) : List ValueExpr → Option (List Value)
  | [] => some []
  | e :: es => (e.resolve results).bind fun v => (resolveAll results es).map fun vs => v :: vs

/-- The descriptor a line of a program stands for, once its values are known (R114). -/
def ProgramLine.resolve (results : List (List Value)) (l : ProgramLine) : Option Descriptor :=
  (resolveAll results l.values).map fun vs => ⟨l.mnemonic, l.files, l.codes, vs⟩

/-- The line of a program that holds a descriptor as it stands. -/
def Descriptor.line (d : Descriptor) : ProgramLine :=
  ⟨d.mnemonic, d.files, d.codes, d.values.map .literal⟩

/-- The descriptor of a table row's bit string with nothing beside it. The table's rows have no bits
that select the operation or the files (R106, R109) and its READ and WRITE rows share their bit
strings, so the model reads such a word as the READ of its length with every operand a GPR: 6 bits
READ1, 12 bits READ2, 18 bits READ3, 24 bits READ4, counted in whole bytes; a 3-byte word is READ3
where the bits above its 18 are zero and READ4 elsewhere (DESIGN CHOICE, log entry 2). Whole bytes pad
6 bits to 8 and 12 to 16, and the spec gives no padded word: the padding bits of an 8-bit and a 16-bit
word, and every bit of `w` above `nbits`, are dropped, not refused (DESIGN CHOICE, log entry 2). Any
other length is given to the decoder as it is, and refused. -/
def tableDescriptor (nbits w : Nat) : Descriptor :=
  if nbits = 6 ∨ nbits = 8 then ⟨.READ1, [.gpr], ⟨6, BitVec.ofNat 6 w⟩, []⟩
  else if nbits = 12 ∨ nbits = 16 then ⟨.READ2, [.gpr, .gpr], ⟨12, BitVec.ofNat 12 w⟩, []⟩
  else if nbits = 18 ∨ (nbits = 24 ∧ w < 2 ^ 18) then
    ⟨.READ3, [.gpr, .gpr, .gpr], ⟨18, BitVec.ofNat 18 w⟩, []⟩
  else if nbits = 24 then ⟨.READ4, [.gpr, .gpr, .gpr, .gpr], ⟨24, BitVec.ofNat 24 w⟩, []⟩
  else ⟨.READ1, [.gpr], ⟨nbits, BitVec.ofNat nbits w⟩, []⟩

/-- The operation the decoder reads from a table row's word with nothing beside it (log entry 2). -/
def decodeTableWord (nbits w : Nat) : Option Instr :=
  match decode (tableDescriptor nbits w) with
  | .ok i => some i
  | .error _ => none

end Sys2Proof
end

