-- ==== Sys2Proof/Machine/State.lean ====
section
/-! DEFINITION. The state of one hardware thread as plain data (R22, R23), the reasons a step can
stop (R141), and the state after reset (R75). -/

namespace Sys2Proof.Machine

/-- A storage cell of w bits (R12, R23): bit i is `val[i]` where `known[i]` is set, and is
unspecified where it is not. In a cell as the operations leave it, an unspecified bit is held as 0
in `val`, so that equal cells are equal data. -/
structure Cell (w : Nat) where
  val : BitVec w
  known : BitVec w
deriving DecidableEq, Repr

/-- The cell of an arbitrary-precision register (R23, R40): the last value stored, and whether one
was. -/
structure ApCell where
  val : APValue
  written : Bool
deriving DecidableEq, Repr

/-- A cell every bit of which is unspecified (R75). -/
def Cell.unspecified (w : Nat) : Cell w := ⟨0#w, 0#w⟩

/-- An arbitrary-precision cell nothing has written (R75). -/
def ApCell.unwritten : ApCell := ⟨.base, false⟩

/-- Why a step stops with a fault. -/
inductive Fault where
  /-- Raised by READ1 to READ4, stage 2 (R73, R120, R141): a bit read is unspecified and the
  machine's `unspecifiedRead` is `fault`. Safe: the hardware returns some bits. -/
  | unspecifiedRead
deriving DecidableEq, Repr

/-- Why a step has no meaning in the model. -/
inductive Refusal where
  /-- Raised by an arm of `exec` whose instruction has no meaning yet. Safe; no arm raises it. -/
  | notModelled (mnemonic : String)
  /-- Raised by every operation, stage 1 (R69, R141): a designator names no register, or a reserved
  one. Safe. -/
  | reservedSpecifier
  /-- Raised by WRITE1 to WRITE4, stage 2 (R71, R130): a value has not the view's width. Safe. -/
  | widthMismatch
  /-- Raised by WRITE2 to WRITE4, stage 3 (R130): two operands of one pattern overlap. Safe. -/
  | writeConflict
  /-- Raised by WRITE1 to WRITE4, stage 4 (R67, R130): a write to PC, CORE_ID, THREAD_ID, FEATURES,
  CACHE_CTRL or POWER_CTRL, or one that changes CONFIG[63:16]. Safe. -/
  | unmodelledWrite
  /-- Raised by WRITE1 to WRITE4, stage 4 (R59, R61, R130): a nonzero value for FLAGS[63:16] or
  CONFIG[15:8]. Safe. -/
  | reservedFieldWrite
  /-- Raised by the step: the next line of the program is no descriptor of an operation (R109).
  Safe. -/
  | undecodable (e : DecodeError)
  /-- Raised by the step: a `$k.j` of the next line names no result of an earlier operation (R114).
  Safe. -/
  | unresolvedValue
deriving DecidableEq, Repr

/-- The state of one hardware thread (R22, R23), its parameters (R8), the read results of the run
(R15, R172), the program (R15, R91) and the number of draws made. -/
structure State where
  /-- `G[1..63]`, R1 at index 0. -/
  g : Vector (Cell 64) 63
  /-- `PF[0..7]`: F0 to F7, D0 to D7, Q0 to Q7 (R37). -/
  pf : Vector (Cell 128) 8
  /-- `FS[8..15]`: F8 to F15. -/
  fs : Vector (Cell 32) 8
  /-- `FD[8..15]`: D8 to D15. -/
  fd : Vector (Cell 64) 8
  /-- `FQ[8..15]`: Q8 to Q15; with `FP_ALIAS_ROWS` = 16 these are `PF[8..15]`. -/
  fq : Vector (Cell 128) 8
  /-- `AP[0..15]`: F48 to F63 (R40). -/
  ap : Vector ApCell 16
  /-- `PV[0..3]`: Vj, V(16+j), V(24+j), V(28+j) (R45). -/
  pv : Vector (Cell 512) 4
  /-- `VW[4..15]`: V4 to V15. -/
  vw : Vector (Cell 512) 12
  /-- `VH[4..7]`: V20 to V23. -/
  vh : Vector (Cell 256) 4
  /-- `S_SP` (R54). -/
  sp : Cell 64
  /-- `S_FP` (R54). -/
  fp : Cell 64
  /-- `S_LR` (R54). -/
  lr : Cell 64
  /-- `S_FLAGS`: FLAGS[15:0] (R58, R59). -/
  flags : Cell 16
  /-- `S_PRIORITY` (R57). -/
  priority : Cell 8
  /-- `S_CONFIG`: CONFIG[7:0] (R60, R61). -/
  config : Cell 8
  /-- The parameters of R8, PC, CORE_ID, THREAD_ID, FEATURES and CONFIG[63:16] among them. -/
  params : Params
  /-- The read results of the run so far, one list for each operation, oldest first (R172). -/
  results : List (List Value)
  /-- The operations still to run, the next one first (R15). -/
  program : List ProgramLine
  /-- How many free values have been drawn: the model's own field (R13, log entry 5). -/
  draws : Nat
deriving DecidableEq, Repr

/-- The state after reset (R75, R160): every cell unspecified, every identification and
configuration value its parameter, no operation run and none given. -/
def State.reset : State where
  g := Vector.replicate 63 (Cell.unspecified 64)
  pf := Vector.replicate 8 (Cell.unspecified 128)
  fs := Vector.replicate 8 (Cell.unspecified 32)
  fd := Vector.replicate 8 (Cell.unspecified 64)
  fq := Vector.replicate 8 (Cell.unspecified 128)
  ap := Vector.replicate 16 ApCell.unwritten
  pv := Vector.replicate 4 (Cell.unspecified 512)
  vw := Vector.replicate 12 (Cell.unspecified 512)
  vh := Vector.replicate 4 (Cell.unspecified 256)
  sp := Cell.unspecified 64
  fp := Cell.unspecified 64
  lr := Cell.unspecified 64
  flags := Cell.unspecified 16
  priority := Cell.unspecified 8
  config := Cell.unspecified 8
  params := Config.params
  results := []
  program := []
  draws := 0

end Sys2Proof.Machine
end

