-- ==== Sys2Proof/Machine/Cells.lean ====
section
/-! DEFINITION. Storage cells: what a store of a view leaves in a cell, what a read of a view that
holds unspecified bits yields, and the one place where the fields of State are read and written. -/

namespace Sys2Proof.Machine

/-- The mask of the bits below w. -/
def lowMask (w : Nat) : Wide := (BitVec.allOnes w).setWidth 512

/-- A cell's bits in a cell of 512; every bit above its own width is unspecified. -/
def Cell.widen {w : Nat} (c : Cell w) : Cell 512 := ⟨c.val.setWidth 512, c.known.setWidth 512⟩

/-- The low-order n bits of a cell of 512. -/
def Cell.narrow (c : Cell 512) (n : Nat) : Cell n := ⟨c.val.setWidth n, c.known.setWidth n⟩

/-- What a store through a view of w bits leaves in a cell (R39, R47, R71): the value in the bits
below w, every bit above unspecified. -/
def Cell.store {w : Nat} (v : BitVec w) : Cell 512 := ⟨v.setWidth 512, lowMask w⟩

/-- Whether every bit below w has a value (R73, R74). -/
def Cell.specifiedBelow (c : Cell 512) (w : Nat) : Bool := decide (c.known &&& lowMask w = lowMask w)

/-- A cell's bits with `free` in place of the unspecified ones (R73, `draw_N()`). -/
def Cell.resolve (c : Cell 512) (free : Wide) : Wide := (c.val &&& c.known) ||| (free &&& ~~~c.known)

/-- The low-order w bits of a cell, with `free` in place of the unspecified ones. Where none of them is
unspecified the bits are taken as they stand, which says the same (`Cell.read_eq_resolve`) and lets
Lean evaluate the read. -/
def Cell.read (c : Cell 512) (w : Nat) (free : Wide) : BitVec w :=
  if c.specifiedBelow w then c.val.setWidth w else (c.resolve free).setWidth w

/-- A value's bits, zero above its width; an arbitrary-precision value has none. -/
def Value.wide : Value → Wide
  | .bits _ v => v.setWidth 512
  | .ap _ => 0

/-- The bits of a storage cell; an AP register and an SPR without storage have none. -/
def State.cellAt (s : State) : Loc → Cell 512
  | .g i => s.g[i].widen
  | .pf i => s.pf[i].widen
  | .fs i => s.fs[i].widen
  | .fd i => s.fd[i].widen
  | .fq i => s.fq[i].widen
  | .ap _ => Cell.unspecified 512
  | .pv j => s.pv[j].widen
  | .vw j => s.vw[j].widen
  | .vh j => s.vh[j].widen
  | .sp => s.sp.widen
  | .fp => s.fp.widen
  | .lr => s.lr.widen
  | .flags => s.flags.widen
  | .priority => s.priority.widen
  | .config => s.config.widen
  | .spr _ => Cell.unspecified 512

/-- The state with a storage cell holding the low-order bits of `c`; nothing for an AP register or
an SPR without storage. -/
def State.setCell (s : State) (l : Loc) (c : Cell 512) : State :=
  match l with
  | .g i => { s with g := s.g.set i (c.narrow 64) }
  | .pf i => { s with pf := s.pf.set i (c.narrow 128) }
  | .fs i => { s with fs := s.fs.set i (c.narrow 32) }
  | .fd i => { s with fd := s.fd.set i (c.narrow 64) }
  | .fq i => { s with fq := s.fq.set i (c.narrow 128) }
  | .ap _ => s
  | .pv j => { s with pv := s.pv.set j (c.narrow 512) }
  | .vw j => { s with vw := s.vw.set j (c.narrow 512) }
  | .vh j => { s with vh := s.vh.set j (c.narrow 256) }
  | .sp => { s with sp := c.narrow 64 }
  | .fp => { s with fp := c.narrow 64 }
  | .lr => { s with lr := c.narrow 64 }
  | .flags => { s with flags := c.narrow 16 }
  | .priority => { s with priority := c.narrow 8 }
  | .config => { s with config := c.narrow 8 }
  | .spr _ => s

/-- The state with a value stored in an arbitrary-precision cell (R40). -/
def State.setAp (s : State) (i : Fin 16) (v : APValue) : State :=
  { s with ap := s.ap.set i ⟨v, true⟩ }

/-- The state with one more operation's results at the end of the run's results (R15, R172). -/
def State.logResults (s : State) (r : List Value) : State := { s with results := s.results ++ [r] }

/-- The state after n more free values were drawn. -/
def State.advanceDraws (s : State) (n : Nat) : State := { s with draws := s.draws + n }

/-- The state with `rest` as the operations still to run. -/
def State.withProgram (s : State) (rest : List ProgramLine) : State := { s with program := rest }

end Sys2Proof.Machine
end

