-- ==== Sys2Proof/Machine/Flags.lean ====
section
/-! DEFINITION. The fields of FLAGS, CONFIG and FEATURES by name, and what the special purpose
registers read as and refuse. No operation computes a flag (R125, R130): FLAGS is storage. -/

namespace Sys2Proof.Machine

/-- The sixteen named flags (R58). -/
inductive Flag where
  | ZF
  | SF
  | OF
  | CF
  | PF
  | AF
  | DF
  | IF
  | TF
  | IOPL
  | NT
  | RF
  | VM
  | AC
  | VIF
  | VIP
deriving DecidableEq, Repr

/-- A flag's bit of FLAGS (R58). -/
def Flag.bit : Flag → Nat
  | .ZF => 0
  | .SF => 1
  | .OF => 2
  | .CF => 3
  | .PF => 4
  | .AF => 5
  | .DF => 6
  | .IF => 7
  | .TF => 8
  | .IOPL => 9
  | .NT => 10
  | .RF => 11
  | .VM => 12
  | .AC => 13
  | .VIF => 14
  | .VIP => 15

/-- The eight enables of CONFIG (R60). -/
inductive Enable where
  | FPU_EN
  | VEC_EN
  | MIMD_EN
  | AI_EN
  | CACHE_EN
  | TLB_EN
  | DEBUG_EN
  | TRACE_EN
deriving DecidableEq, Repr

/-- An enable's bit of CONFIG (R60). -/
def Enable.bit : Enable → Nat
  | .FPU_EN => 0
  | .VEC_EN => 1
  | .MIMD_EN => 2
  | .AI_EN => 3
  | .CACHE_EN => 4
  | .TLB_EN => 5
  | .DEBUG_EN => 6
  | .TRACE_EN => 7

/-- The twelve named features (R62). -/
inductive Feature where
  | IEEE754
  | BFP
  | AP
  | TAPERED
  | VECTOR
  | MIMD
  | AI_ML
  | CRYPTO
  | DEBUG
  | TRACE
  | PROFILING
  | POWER_MGMT
deriving DecidableEq, Repr

/-- A feature's bit of FEATURES (R62). -/
def Feature.bit : Feature → Nat
  | .IEEE754 => 0
  | .BFP => 1
  | .AP => 2
  | .TAPERED => 3
  | .VECTOR => 4
  | .MIMD => 5
  | .AI_ML => 6
  | .CRYPTO => 7
  | .DEBUG => 8
  | .TRACE => 9
  | .PROFILING => 10
  | .POWER_MGMT => 11

/-- Bit i of a cell, none where it is unspecified (R12). -/
def Cell.bit? {w : Nat} (c : Cell w) (i : Nat) : Option Bool :=
  if c.known.getLsbD i then some (c.val.getLsbD i) else none

/-- A flag of FLAGS, none where it is unspecified (R58). -/
def State.flag? (s : State) (f : Flag) : Option Bool := s.flags.bit? f.bit

/-- An enable of CONFIG, none where it is unspecified (R60). -/
def State.enable? (s : State) (e : Enable) : Option Bool := s.config.bit? e.bit

/-- A feature bit of FEATURES (R62). -/
def State.feature (s : State) (f : Feature) : Bool := s.params.featuresValue.getLsbD f.bit

/-- CONFIG[63:16]: `{MEMORY_SIZE, CACHE_SIZE, THREAD_COUNT, CORE_COUNT}` (R60, R61). -/
def configUpper (p : Params) : BitVec 48 := p.memorySize ++ p.cacheSize ++ p.threadCount ++ p.coreCount

/-- CONFIG as a read sees it (R61): the parameters, eight bits without a value, `S_CONFIG`. -/
def State.configView (s : State) : Cell 512 :=
  ⟨(configUpper s.params ++ 0#8 ++ s.config.val).setWidth 512,
   (BitVec.allOnes 48 ++ 0#8 ++ s.config.known).setWidth 512⟩

/-- An SPR without storage as a read sees it (R67): a parameter, or no bit with a value. -/
def State.sprView (s : State) (c : Code) : Cell 512 :=
  match c.toNat with
  | 0 => Cell.store s.params.pcValue
  | 5 => Cell.store s.params.coreIdValue
  | 6 => Cell.store s.params.threadIdValue
  | 9 => Cell.store s.params.featuresValue
  | _ => Cell.unspecified 512

/-- Why a write of `v` to the SPR with code `c` is refused, none where it is stored (R67, stage 4 of
R130). -/
def sprWriteRefusal (p : Params) (c : Code) (v : Value) : Option Refusal :=
  match c.toNat with
  | 0 => some .unmodelledWrite
  | 4 => if (Value.wide v).extractLsb' 16 48 = 0#48 then none else some .reservedFieldWrite
  | 5 => some .unmodelledWrite
  | 6 => some .unmodelledWrite
  | 8 =>
    if (Value.wide v).extractLsb' 8 8 ≠ 0#8 then some .reservedFieldWrite
    else if (Value.wide v).extractLsb' 16 48 ≠ configUpper p then some .unmodelledWrite
    else none
  | 9 => some .unmodelledWrite
  | 10 => some .unmodelledWrite
  | 11 => some .unmodelledWrite
  | _ => none

end Sys2Proof.Machine
end

