-- ==== Sys2Proof/Machine/Ops.lean ====
section
/-! DEFINITION. The shared operations: `RegRead` and `RegWrite` (R70, R71), the read pattern with its
stages (R120), the write pattern with its stages (R130). The source defines no exception, no trap
entry and no return from one (R140, R144, R145), so there is no such operation here: a fault or a
refusal enters no handler. -/

namespace Sys2Proof.Machine

/-- The outcome of a step of this machine. -/
abbrev Result := Host.Outcome State Fault Refusal

/-! ### RegRead (R70) -/

/-- A cell as `RegRead` sees it (R70): CONFIG with its parameter fields (R61), an SPR without storage
as R67 says, every other cell as it is. -/
def State.viewAt (s : State) : Loc → Cell 512
  | .g i => s.cellAt (.g i)
  | .pf i => s.cellAt (.pf i)
  | .fs i => s.cellAt (.fs i)
  | .fd i => s.cellAt (.fd i)
  | .fq i => s.cellAt (.fq i)
  | .ap i => s.cellAt (.ap i)
  | .pv j => s.cellAt (.pv j)
  | .vw j => s.cellAt (.vw j)
  | .vh j => s.cellAt (.vh j)
  | .sp => s.cellAt .sp
  | .fp => s.cellAt .fp
  | .lr => s.cellAt .lr
  | .flags => s.cellAt .flags
  | .priority => s.cellAt .priority
  | .config => s.configView
  | .spr c => s.sprView c

/-- The view of a designator: the bits `RegRead` takes its result from, with the mask of those that
have a value (R70, R72). R0 reads as 0 (R29). -/
def State.view (s : State) (d : Designator) : Cell 512 :=
  match d.loc s.params with
  | none => Cell.store 0#64
  | some l => s.viewAt l

/-- Whether every storage bit below w of a cell has a value; for an arbitrary-precision cell, whether
it was written (R70, R73). An SPR's bits that are read as a draw are no storage bits. -/
def State.specifiedAt (s : State) (l : Loc) (w : Nat) : Bool :=
  match l.apIndex with
  | some i => s.ap[i].written
  | none => (s.cellAt l).specifiedBelow (min w l.width)

/-- Whether a read of the view meets no unspecified bit (R73). -/
def State.specified (s : State) (d : Designator) : Bool :=
  match d.loc s.params with
  | none => true
  | some l => s.specifiedAt l d.width.size

/-- An arbitrary-precision register's value: the last one stored (R40), or the k-th draw. -/
def State.apRead (s : State) (i : Fin 16) (k : Nat) : APValue :=
  if s.ap[i].written then s.ap[i].val else Config.freeAp k

/-- `RegRead(d)` (R70): the bits of the view, with the k-th draw in place of those without a value
(R59, R61, R63, R64, R73). -/
def State.regRead (s : State) (d : Designator) (k : Nat) : Value :=
  match (d.loc s.params).bind Loc.apIndex with
  | some i => .ap (s.apRead i k)
  | none => .bits d.width.size ((s.view d).read d.width.size (Config.freeBits k))

/-! ### RegWrite (R71) -/

/-- A value stored in a cell: in the bits of its width, every bit above without a value (R71). -/
def State.putAt (s : State) (l : Loc) (v : Value) : State :=
  match v with
  | .bits _ b => s.setCell l (Cell.store b)
  | .ap a => match l.apIndex with
    | some i => s.setAp i a
    | none => s

/-- `RegWrite(d, v)` (R71): R0 takes nothing (R29). -/
def State.regWrite (s : State) (d : Designator) (v : Value) : State :=
  match d.loc s.params with
  | none => s
  | some l => s.putAt l v

/-! ### The read pattern (R120) -/

/-- The results of a READ: one `RegRead` for each designator, all of the same state, each with a
draw of its own (R120). -/
def State.readAll (s : State) : List Designator → Nat → List Value
  | [], _ => []
  | d :: ds, k => s.regRead d k :: s.readAll ds (k + 1)

/-- READn (R120): stage 1 the designators, stage 2 the unspecified bits where the machine faults on
one (R73), stage 3 the results. Nothing else of the state changes (R70). -/
def readPattern (ds : List Designator) (s : State) : Result :=
  if ds.all Designator.valid = false then .refused .reservedSpecifier
  else if s.params.unspecifiedRead = .fault ∧ ds.all s.specified = false then .fault .unspecifiedRead
  else .next ((s.logResults (s.readAll ds s.draws)).advanceDraws ds.length)

/-! ### The write pattern (R130) -/

/-- Whether two of the designators overlap (R72, stage 3 of R130). -/
def anyOverlap (p : Params) : List Designator → Bool
  | [] => false
  | d :: ds => ds.any (d.overlap p) || anyOverlap p ds

/-- Why a write of `v` to `d` is refused at stage 4 (R130): only an SPR has such a reason. -/
def writeRefusal (p : Params) (w : Designator × Value) : Option Refusal :=
  match w.1.file with
  | .spr => sprWriteRefusal p w.1.code w.2
  | _ => none

/-- Every `RegWrite` of a WRITE, in operand order (stage 5 of R130). -/
def State.writeAll (s : State) : List (Designator × Value) → State
  | [] => s
  | (d, v) :: ws => (s.regWrite d v).writeAll ws

/-- WRITEn (R130): stage 1 the designators, stage 2 the widths, stage 3 the overlaps, stage 4 the
SPRs, stage 5 all the writes. -/
def writePattern (ws : List (Designator × Value)) (s : State) : Result :=
  if (ws.all fun w => w.1.valid) = false then .refused .reservedSpecifier
  else if (ws.all fun w => decide (w.2.width = w.1.width)) = false then .refused .widthMismatch
  else if anyOverlap s.params (ws.map Prod.fst) then .refused .writeConflict
  else match ws.findSome? (writeRefusal s.params) with
    | some r => .refused r
    | none => .next ((s.writeAll ws).logResults [])

end Sys2Proof.Machine
end

