-- ==== Sys2Proof/Machine/Reads.lean ====
section
/-! DEFINITION. The read access patterns, READ1 to READ4 (R121 to R124). -/

namespace Sys2Proof.Machine

/-- READ1 d1 (R121). -/
def execRead1 (d1 : Designator) (s : State) : Result := readPattern [d1] s

/-- READ2 d1, d2 (R122). -/
def execRead2 (d1 d2 : Designator) (s : State) : Result := readPattern [d1, d2] s

/-- READ3 d1, d2, d3 (R123). -/
def execRead3 (d1 d2 d3 : Designator) (s : State) : Result := readPattern [d1, d2, d3] s

/-- READ4 d1, d2, d3, d4 (R124). -/
def execRead4 (d1 d2 d3 d4 : Designator) (s : State) : Result := readPattern [d1, d2, d3, d4] s

end Sys2Proof.Machine
end

