-- ==== Sys2Proof/Machine/Writes.lean ====
section
/-! DEFINITION. The write access patterns, WRITE1 to WRITE4 (R131 to R134). -/

namespace Sys2Proof.Machine

/-- WRITE1 d1 <- v1 (R131). -/
def execWrite1 (d1 : Designator) (v1 : Value) (s : State) : Result := writePattern [(d1, v1)] s

/-- WRITE2 d1 <- v1, d2 <- v2 (R132). -/
def execWrite2 (d1 : Designator) (v1 : Value) (d2 : Designator) (v2 : Value) (s : State) : Result :=
  writePattern [(d1, v1), (d2, v2)] s

/-- WRITE3 d1 <- v1, d2 <- v2, d3 <- v3 (R133). -/
def execWrite3 (d1 : Designator) (v1 : Value) (d2 : Designator) (v2 : Value) (d3 : Designator) (v3 : Value)
    (s : State) : Result :=
  writePattern [(d1, v1), (d2, v2), (d3, v3)] s

/-- WRITE4 d1 <- v1, d2 <- v2, d3 <- v3, d4 <- v4 (R134). -/
def execWrite4 (d1 : Designator) (v1 : Value) (d2 : Designator) (v2 : Value) (d3 : Designator) (v3 : Value)
    (d4 : Designator) (v4 : Value) (s : State) : Result :=
  writePattern [(d1, v1), (d2, v2), (d3, v3), (d4, v4)] s

end Sys2Proof.Machine
end

