-- ==== Sys2Proof/Machine/Dispatch.lean ====
section
/-! DEFINITION. One arm for each operation (R108). -/

namespace Sys2Proof.Machine

def exec (i : Instr) (s : State) : Host.Outcome State Fault Refusal :=
  match i with
  | .read1 d1 => Sys2Proof.Machine.execRead1 d1 s
  | .read2 d1 d2 => Sys2Proof.Machine.execRead2 d1 d2 s
  | .read3 d1 d2 d3 => Sys2Proof.Machine.execRead3 d1 d2 d3 s
  | .read4 d1 d2 d3 d4 => Sys2Proof.Machine.execRead4 d1 d2 d3 d4 s
  | .write1 d1 v1 => Sys2Proof.Machine.execWrite1 d1 v1 s
  | .write2 d1 v1 d2 v2 => Sys2Proof.Machine.execWrite2 d1 v1 d2 v2 s
  | .write3 d1 v1 d2 v2 d3 v3 => Sys2Proof.Machine.execWrite3 d1 v1 d2 v2 d3 v3 s
  | .write4 d1 v1 d2 v2 d3 v3 d4 v4 => Sys2Proof.Machine.execWrite4 d1 v1 d2 v2 d3 v3 d4 v4 s

end Sys2Proof.Machine
end

