-- ==== Sys2Proof/Machine/Fetch.lean ====
section
/-! DEFINITION. The next operation of the program (R15, R172). The source defines no instruction
fetch (R91): the program is a list of operations given to the model. -/

namespace Sys2Proof.Machine

/-- What stands next in the program. -/
inductive Fetched where
  /-- No operation is left: the run has ended (R172). -/
  | ended
  /-- The next line is no operation. -/
  | bad (r : Refusal)
  /-- The next operation, and the lines after it. -/
  | op (i : Instr) (rest : List ProgramLine)
deriving DecidableEq, Repr

/-- The operation a line of the program stands for, from the results so far (R109, R114). -/
def fetchLine (results : List (List Value)) (l : ProgramLine) (rest : List ProgramLine) : Fetched :=
  match l.resolve results with
  | none => .bad .unresolvedValue
  | some d => match decode d with
    | .ok i => .op i rest
    | .error e => .bad (.undecodable e)

/-- What the state's program has next (R15). -/
def State.fetch (s : State) : Fetched :=
  match s.program with
  | [] => .ended
  | l :: rest => fetchLine s.results l rest

end Sys2Proof.Machine
end

