-- ==== Sys2Proof/Machine/Step.lean ====
section
/-! DEFINITION. One step: the next operation of the program on the state the one before left (R15,
R135, R172). -/

namespace Sys2Proof.Machine

/-- A step takes the next operation off the program and runs it (R15). Where none is left the run has
ended and the state stays as it is (R172, log entry 1). -/
def step (s : State) : Host.Outcome State Fault Refusal :=
  match s.fetch with
  | .ended => .next s
  | .bad r => .refused r
  | .op i rest => exec i (s.withProgram rest)

/-- The state with a table row's word as the next operation of its program (log entry 2): a program is
given from outside (R15), and this stands for giving it. -/
def State.withFetchWord (s : State) (nbits w : Nat) : State :=
  s.withProgram ((tableDescriptor nbits w).line :: s.program)

end Sys2Proof.Machine
end

