-- ==== Sys2Proof/Machine/Timing.lean ====
section
/-! DEFINITION. The timing and the hidden structure the source gives, as data (R77, R166 to R170).
No step reads any of it: every hazard is 0 cycles (R163, R164), so software sees none of it. -/

namespace Sys2Proof.Machine

/-- Cycles from the start of a pattern to its result: 1 for each of the eight (R166, R167). -/
def latencyCycles : Mnemonic → Nat
  | .READ1 => 1
  | .READ2 => 1
  | .READ3 => 1
  | .READ4 => 1
  | .WRITE1 => 1
  | .WRITE2 => 1
  | .WRITE3 => 1
  | .WRITE4 => 1

/-- Patterns each cycle, as the tables give them (R166, R167). -/
def throughputPerCycle : Mnemonic → Nat
  | .READ1 => 8
  | .READ2 => 4
  | .READ3 => 2
  | .READ4 => 1
  | .WRITE1 => 4
  | .WRITE2 => 2
  | .WRITE3 => 1
  | .WRITE4 => 1

/-- The three hazards between two accesses (R163, R164, R168). -/
inductive Hazard where
  | readAfterWrite
  | writeAfterRead
  | writeAfterWrite
deriving DecidableEq, Repr

/-- How the hardware removes a hazard (R163, R164). -/
inductive HazardRemedy where
  | fullBypass
  | registerRenaming
deriving DecidableEq, Repr

/-- Cycles software must wait for a hazard: none (R163, R164, R168). -/
def hazardCycles : Hazard → Nat
  | .readAfterWrite => 0
  | .writeAfterRead => 0
  | .writeAfterWrite => 0

/-- What removes each hazard (R163, R164). -/
def hazardRemedy : Hazard → HazardRemedy
  | .readAfterWrite => .fullBypass
  | .writeAfterRead => .registerRenaming
  | .writeAfterWrite => .registerRenaming

/-- The bank a register's name stands in (R77); none for a code that names no register. Aliased names
stand in different banks, so a bank is no architectural state (C2). -/
def bankOf (d : Designator) : Option Nat :=
  match d.file with
  | .gpr => some (d.code.toNat / 16)
  | .fpr => some (d.code.toNat / 16)
  | .vr => if d.code.toNat ≤ 31 then some (d.code.toNat / 8) else none
  | .spr => if d.code.toNat ≤ 15 then some 4 else none

def bankCount : Nat := 5
def readPorts : Nat := 8
def writePorts : Nat := 4
def readPortsPerBank : Nat := 2
def writePortsPerBank : Nat := 1
def renameRegs : Nat := 64

/-- The physical figures (R170): nanometres, hundredths of a square millimetre, milliwatts, gigahertz,
tenths of a nanosecond. -/
def technologyNm : Nat := 7
def areaHundredthsMm2 : Nat := 250
def powerMilliwatts : Nat := 500
def leakageMilliwatts : Nat := 50
def clockGigahertz : Nat := 5
def accessTimeTenthsNs : Nat := 2

end Sys2Proof.Machine
end

