-- ==== Sys2Proof/Safety.lean ====
section
/-! DEFINITION. The terms claims use: a good end of a run (R141, R172), the named premises (R66,
R148), and the invariant of the storage cells (R74). -/

namespace Sys2Proof.Machine

/-- The state a step leads to, none where it stops. -/
def Result.next? (r : Result) : Option State :=
  match r with
  | .next t => some t
  | .fault _ => none
  | .refused _ => none

/-- A run from `s` ends well in `t` (R172): after finitely many steps, none of which faults or is
refused, no operation is left. -/
def EndsIn (s t : State) : Prop := (∃ n, Host.Core.run Sys2Proof.core n s = .next t) ∧ t.program = []

/-- A run from `s` stops badly (R141): it reaches a fault or a refusal. -/
def Stops (s : State) : Prop :=
  ∃ n, (∃ r, Host.Core.run Sys2Proof.core n s = .fault r) ∨ ∃ r, Host.Core.run Sys2Proof.core n s = .refused r

/-- The named premise `UnitsEnabled` of claims about FPRs and VRs (R66). No operation reads it. -/
def UnitsEnabled (s : State) (d : Designator) : Prop :=
  match d.file with
  | .fpr => s.enable? .FPU_EN = some true
  | .vr => s.enable? .VEC_EN = some true
  | .gpr => True
  | .spr => True

/-- The named premise `SprAccessPermitted` of claims that write an SPR (R148). No operation reads it. -/
def SprAccessPermitted (s : State) : Prop := s.params.sprAccessPermitted = true

/-- The view widths of a shared FPR cell, 0 for no view (R37, R74). -/
def fprViews : List Nat := [0, 32, 64, 128]

/-- The view widths of a shared VR cell (R45, R74). -/
def vrViews : List Nat := [0, 64, 128, 256, 512]

/-- A cell as the operations leave it: an unspecified bit is held as 0, and the bits with a value are
those below one of the views of the cell (R74). -/
abbrev Cell.Sound {w : Nat} (views : List Nat) (c : Cell w) : Prop :=
  c.val &&& ~~~c.known = 0#w ∧ ∃ v ∈ views, c.known = (BitVec.allOnes v).setWidth w

/-- The views of `FQ[8..15]`: the cells of Q8 to Q15 alone, or shared with F and D (R37). -/
def fqViews : FpAliasRows → List Nat
  | .rows8 => [0, 128]
  | .rows16 => fprViews

/-- Every storage cell is sound; an arbitrary-precision cell nothing wrote holds the token 0
(the stored 0 and the token 0: log entry 3). -/
abbrev State.CellsSound (s : State) : Prop :=
  (∀ i : Fin 63, s.g[i].Sound [0, 64]) ∧
  (∀ i : Fin 8, s.pf[i].Sound fprViews) ∧
  (∀ i : Fin 8, s.fs[i].Sound [0, 32]) ∧
  (∀ i : Fin 8, s.fd[i].Sound [0, 64]) ∧
  (∀ i : Fin 8, s.fq[i].Sound (fqViews s.params.fpAliasRows)) ∧
  (∀ i : Fin 16, s.ap[i].written = false → s.ap[i].val = .base) ∧
  (∀ j : Fin 4, s.pv[j].Sound vrViews) ∧
  (∀ j : Fin 12, s.vw[j].Sound [0, 512]) ∧
  (∀ j : Fin 4, s.vh[j].Sound [0, 256]) ∧
  s.sp.Sound [0, 64] ∧ s.fp.Sound [0, 64] ∧ s.lr.Sound [0, 64] ∧
  s.flags.Sound [0, 16] ∧ s.priority.Sound [0, 8] ∧ s.config.Sound [0, 8]

end Sys2Proof.Machine
end

