-- ==== Sys2Proof/Certificates/Slice0/Obligations.lean ====
section
/-! DEFINITION. The statements for the provers, from the rules of spec/. A statement that rests on one of the
spec's own decisions (92_eei_decisions.md) or on a choice of the model says so in its docstring. -/

open Sys2Proof Sys2Proof.Machine

/-! ### Descriptors -/

/-- The eight descriptors that 95_test_vectors.md section 2 writes out decode to the operations they stand
for (layout: D3 of the spec; the values of the WRITEs are any of the right width). -/
def Obligations.DecodeWrittenOutDescriptors : Prop :=
  decode ⟨.READ1, [.gpr], ⟨6, 0b001010#6⟩, []⟩ = .ok (.read1 ⟨.gpr, 10⟩) ∧
  decode ⟨.READ2, [.gpr, .fpr], ⟨12, 0b001010010001#12⟩, []⟩ = .ok (.read2 ⟨.gpr, 10⟩ ⟨.fpr, 17⟩) ∧
  decode ⟨.READ3, [.gpr, .gpr, .gpr], ⟨18, 0b000001000010000000#18⟩, []⟩ =
    .ok (.read3 ⟨.gpr, 1⟩ ⟨.gpr, 2⟩ ⟨.gpr, 0⟩) ∧
  decode ⟨.READ4, [.vr, .vr, .vr, .vr], ⟨24, 0b000000010000011000011100#24⟩, []⟩ =
    .ok (.read4 ⟨.vr, 0⟩ ⟨.vr, 16⟩ ⟨.vr, 24⟩ ⟨.vr, 28⟩) ∧
  (∀ q : BitVec 128, decode ⟨.WRITE1, [.fpr], ⟨6, 0b100001#6⟩, [.bits 128 q]⟩ =
    .ok (.write1 ⟨.fpr, 33⟩ (.bits 128 q))) ∧
  ∀ a b c d : BitVec 64,
    decode ⟨.WRITE2, [.gpr, .spr], ⟨12, 0b000010000001#12⟩, [.bits 64 a, .bits 64 b]⟩ =
      .ok (.write2 ⟨.gpr, 2⟩ (.bits 64 a) ⟨.spr, 1⟩ (.bits 64 b)) ∧
    decode ⟨.WRITE1, [.spr], ⟨6, 0b000100#6⟩, [.bits 64 a]⟩ = .ok (.write1 ⟨.spr, 4⟩ (.bits 64 a)) ∧
    decode ⟨.WRITE4, [.vr, .vr, .vr, .vr], ⟨24, 0b011100011101011110011111#24⟩,
        [.bits 64 a, .bits 64 b, .bits 64 c, .bits 64 d]⟩ =
      .ok (.write4 ⟨.vr, 28⟩ (.bits 64 a) ⟨.vr, 29⟩ (.bits 64 b) ⟨.vr, 30⟩ (.bits 64 c) ⟨.vr, 31⟩ (.bits 64 d))

/-- Decoding the descriptor of any operation gives the operation back: no bit of a code, no file and
no value is dropped (R109; layout: D3 of the spec). -/
def Obligations.DecodeOfEncodeIsTheOperation : Prop :=
  ∀ i : Instr, decode (encode i) = .ok i

/-- A descriptor stands for at most one operation, and is the descriptor of the one it decodes to
(R109; layout: D3 of the spec). -/
def Obligations.EncodeOfDecodeIsTheDescriptor : Prop :=
  ∀ (d : Descriptor) (i : Instr), decode d = .ok i → encode i = d

/-- A descriptor decodes exactly where it has six bits and one file for each operand of its mnemonic,
and one value for each operand of a WRITE and none of a READ (R107, R109; layout: D3 of the spec). -/
def Obligations.DescriptorDecodesExactlyWhenItsPartsFit : Prop :=
  ∀ d : Descriptor, (∃ i, decode d = .ok i) ↔
    match d.mnemonic with
    | .READ1 => d.codes.length = 6 ∧ d.files.length = 1 ∧ d.values.length = 0
    | .READ2 => d.codes.length = 12 ∧ d.files.length = 2 ∧ d.values.length = 0
    | .READ3 => d.codes.length = 18 ∧ d.files.length = 3 ∧ d.values.length = 0
    | .READ4 => d.codes.length = 24 ∧ d.files.length = 4 ∧ d.values.length = 0
    | .WRITE1 => d.codes.length = 6 ∧ d.files.length = 1 ∧ d.values.length = 1
    | .WRITE2 => d.codes.length = 12 ∧ d.files.length = 2 ∧ d.values.length = 2
    | .WRITE3 => d.codes.length = 18 ∧ d.files.length = 3 ∧ d.values.length = 3
    | .WRITE4 => d.codes.length = 24 ∧ d.files.length = 4 ∧ d.values.length = 4

/-! ### Names, codes and cells -/

/-- The names of the GPRs in the order of the tables R25 to R28 have the codes 0 to 63, those of the SPRs in
the order of R51 the codes 0 to 15; so every GPR code and every SPR code up to 15 has exactly one name. -/
def Obligations.EveryGprAndSprHasOneName : Prop :=
  let gprs : List GprName :=
    [.zero, .ra, .sp, .gp, .tp, .t 0, .t 1, .t 2, .s 0, .s 1, .a 0, .a 1, .a 2, .a 3, .a 4, .a 5] ++
    [.t 3, .t 4, .t 5, .t 6, .s 2, .s 3, .s 4, .s 5, .a 6, .a 7, .a 8, .a 9, .a 10, .a 11, .a 12, .a 13] ++
    [.addr 0, .addr 1, .addr 2, .addr 3, .addr 4, .addr 5, .addr 6, .addr 7] ++
    [.addr 8, .addr 9, .addr 10, .addr 11, .addr 12, .addr 13, .addr 14, .addr 15] ++
    [.tmp 0, .tmp 1, .tmp 2, .tmp 3, .tmp 4, .tmp 5, .tmp 6, .tmp 7] ++
    [.tmp 8, .tmp 9, .tmp 10, .tmp 11, .tmp 12, .tmp 13, .tmp 14, .tmp 15]
  let sprs : List SprName :=
    [.pc, .sp, .fp, .lr, .flags, .coreId, .threadId, .priority, .config, .features, .cacheCtrl, .powerCtrl] ++
    [.reserved 0, .reserved 1, .reserved 2, .reserved 3]
  gprs.map (fun n => (RegName.gpr n).designator) = (List.range 64).map (fun k => ⟨.gpr, BitVec.ofNat 6 k⟩) ∧
  sprs.map (fun n => (RegName.spr n).designator) = (List.range 16).map (fun k => ⟨.spr, BitVec.ofNat 6 k⟩) ∧
  (∀ c : Code, ∃ n : GprName, (RegName.gpr n).designator = ⟨.gpr, c⟩) ∧
  (∀ n m : GprName, (RegName.gpr n).designator = (RegName.gpr m).designator → n = m) ∧
  (∀ c : Code, c.toNat ≤ 15 → ∃ n : SprName, (RegName.spr n).designator = ⟨.spr, c⟩) ∧
  (∀ n m : SprName, (RegName.spr n).designator = (RegName.spr m).designator → n = m)

/-- ADDRn and R(32+n) are two names of one register, the 64-bit cell G[32+n], for all sixteen n: what
is written under either name is read whole under the other (R30). -/
def Obligations.AddrNamesAreTheAddressRegisters : Prop :=
  ∀ (n : Fin 16) (s t : State) (v : BitVec 64),
    let a := (RegName.gpr (.addr n)).designator
    let r := (RegName.r ⟨32 + n.val, by omega⟩).designator
    a = r ∧ a.width = .bits 64 ∧ a.loc s.params = some (.g ⟨31 + n.val, by omega⟩) ∧
    (exec (.write1 a (.bits 64 v)) s = .next t →
      exec (.read1 r) t = .next ((t.logResults [.bits 64 v]).advanceDraws 1)) ∧
    (exec (.write1 r (.bits 64 v)) s = .next t →
      exec (.read1 a) t = .next ((t.logResults [.bits 64 v]).advanceDraws 1))

/-- Which codes name a usable register in each file, and the width of each view, by the leading bits
of the code (R69, R102 to R105; refusing the codes without a row: D20 of the spec). -/
def Obligations.CodesAndWidthsOfTheFourFiles : Prop :=
  ∀ c : Code,
    (Designator.valid ⟨.gpr, c⟩ = true ∧ Designator.width ⟨.gpr, c⟩ = .bits 64) ∧
    (Designator.valid ⟨.fpr, c⟩ = true ∧
      (c.extractLsb' 4 2 = 0b00#2 → Designator.width ⟨.fpr, c⟩ = .bits 32) ∧
      (c.extractLsb' 4 2 = 0b01#2 → Designator.width ⟨.fpr, c⟩ = .bits 64) ∧
      (c.extractLsb' 4 2 = 0b10#2 → Designator.width ⟨.fpr, c⟩ = .bits 128) ∧
      (c.extractLsb' 4 2 = 0b11#2 → Designator.width ⟨.fpr, c⟩ = .ap)) ∧
    (Designator.valid ⟨.vr, c⟩ = (c.extractLsb' 5 1 == 0#1) ∧
      (c.extractLsb' 4 2 = 0b00#2 → Designator.width ⟨.vr, c⟩ = .bits 512) ∧
      (c.extractLsb' 3 3 = 0b010#3 → Designator.width ⟨.vr, c⟩ = .bits 256) ∧
      (c.extractLsb' 2 4 = 0b0110#4 → Designator.width ⟨.vr, c⟩ = .bits 128) ∧
      (c.extractLsb' 2 4 = 0b0111#4 → Designator.width ⟨.vr, c⟩ = .bits 64)) ∧
    (Designator.valid ⟨.spr, c⟩ = decide (c.toNat < 12) ∧
      (c = 5#6 ∨ c = 6#6 → Designator.width ⟨.spr, c⟩ = .bits 32) ∧
      (c = 7#6 → Designator.width ⟨.spr, c⟩ = .bits 8) ∧
      (c ≠ 5#6 ∧ c ≠ 6#6 ∧ c ≠ 7#6 → Designator.width ⟨.spr, c⟩ = .bits 64))

/-- Two FPRs overlap exactly where they are the same register, or Fi, Di, Qi of one row, i below 8 or,
with `FP_ALIAS_ROWS` = 16, below 16 (R37, R72; both values of the parameter: D7 of the spec). -/
def Obligations.FprsOverlapExactlyInARow : Prop :=
  ∀ (p : Params) (c e : Code), Designator.overlap p ⟨.fpr, c⟩ ⟨.fpr, e⟩ = true ↔
    c = e ∨ (c.toNat < 48 ∧ e.toNat < 48 ∧ c.toNat % 16 = e.toNat % 16 ∧
      (c.toNat % 16 < 8 ∨ p.fpAliasRows = .rows16))

/-- Two VRs overlap exactly where they are the same register or stand in one row of the table of R45:
Vj, V(16+j), V(24+j), V(28+j) for j below 4 (R45, R72; the table read as complete: D7 of the spec). -/
def Obligations.VrsOverlapExactlyInARow : Prop :=
  ∀ (p : Params) (c e : Code), Designator.overlap p ⟨.vr, c⟩ ⟨.vr, e⟩ = true ↔
    (c.toNat < 32 ∧ c = e) ∨
      ∃ j < 4, (c.toNat = j ∨ c.toNat = 16 + j ∨ c.toNat = 24 + j ∨ c.toNat = 28 + j) ∧
        (e.toNat = j ∨ e.toNat = 16 + j ∨ e.toNat = 24 + j ∨ e.toNat = 28 + j)

/-- A GPR overlaps itself alone, R0 nothing, an SPR below code 12 itself; registers of two files
overlap only where `SPR_GPR_ALIAS` makes SPR SP, LR, FP the GPRs R2, R1, R8; and of any two registers
each overlaps the other or neither does (R54, R72; the parameter: D12 of the spec). -/
def Obligations.GprsAndSprsOverlapOnlyAsAliased : Prop :=
  ∀ (p : Params) (c e : Code),
    (Designator.overlap p ⟨.gpr, c⟩ ⟨.gpr, e⟩ = true ↔ c = e ∧ c ≠ 0#6) ∧
    (Designator.overlap p ⟨.spr, c⟩ ⟨.spr, e⟩ = true ↔ c = e ∧ c.toNat < 12) ∧
    (Designator.overlap p ⟨.spr, c⟩ ⟨.gpr, e⟩ = true ↔
      p.sprGprAlias = .shared ∧ ((c = 1#6 ∧ e = 2#6) ∨ (c = 3#6 ∧ e = 1#6) ∨ (c = 2#6 ∧ e = 8#6))) ∧
    Designator.overlap p ⟨.gpr, c⟩ ⟨.fpr, e⟩ = false ∧ Designator.overlap p ⟨.gpr, c⟩ ⟨.vr, e⟩ = false ∧
    Designator.overlap p ⟨.spr, c⟩ ⟨.fpr, e⟩ = false ∧ Designator.overlap p ⟨.spr, c⟩ ⟨.vr, e⟩ = false ∧
    Designator.overlap p ⟨.fpr, c⟩ ⟨.vr, e⟩ = false ∧
    ∀ a b : Designator, a.overlap p b = b.overlap p a

/-! ### Reset -/

/-- After reset no cell has a bit with a value, no AP register was written, no operation has run and none
is given, the alias parameters are as the tables are written, and an unspecified bit reads as a draw. The
spec's own choices are D11 (every cell unspecified) and D7, D12 (the parameters). The model's choices are
the 0 that a cell stores in place of unspecified bits (log entry 3), the draw (log entry 4), the program in
State, empty at reset (log entry 1), and the list of results in State (log entry 24). -/
def Obligations.ResetLeavesEveryCellUnspecified : Prop :=
  (∀ l : Loc, State.reset.cellAt l = Cell.unspecified 512) ∧
  (∀ i : Fin 16, State.reset.ap[i].written = false) ∧
  State.reset.results = [] ∧ State.reset.program = [] ∧
  State.reset.params.fpAliasRows = .rows8 ∧ State.reset.params.sprGprAlias = .separate ∧
  State.reset.params.unspecifiedRead = .draw

/-! ### The step -/

/-- Where the next line of the program stands for an operation, the step is that operation on the
state with the line taken off the program (one operation a step: R15). That the program stands in State and
that the step takes the line off it is the model's choice (log entry 1); R91 holds the program outside the
state. -/
def Obligations.StepRunsTheNextOperation : Prop :=
  ∀ (s : State) (l : ProgramLine) (rest : List ProgramLine) (d : Descriptor) (i : Instr),
    s.program = l :: rest → l.resolve s.results = some d → decode d = .ok i →
    step s = exec i (s.withProgram rest)

/-- A run that has no operation left stays where it is (R172; D32 of the spec and log entry 1). -/
def Obligations.StepAtTheEndOfTheProgramStays : Prop :=
  ∀ s : State, s.program = [] → step s = .next s

/-- A line that is no operation, or that names a result no operation gave, is refused by name. A `$k.j` is
the j-th result of the k-th operation, both counted from 1, and names none where k or j is 0 or past the
end; a line stands for the descriptor with each value in its place (R109, R114; the refusals, and results
looked up in State, are the model's choice, log entries 1 and 24). -/
def Obligations.StepRefusesALineThatIsNoOperation : Prop :=
  (∀ (s : State) (l : ProgramLine) (rest : List ProgramLine), s.program = l :: rest →
    (l.resolve s.results = none → step s = .refused .unresolvedValue) ∧
    ∀ (d : Descriptor) (e : DecodeError), l.resolve s.results = some d → decode d = .error e →
      step s = .refused (.undecodable e)) ∧
  (∀ (before after : List (List Value)) (x y : List Value) (v : Value),
    (ValueExpr.result (before.length + 1) (x.length + 1)).resolve (before ++ (x ++ v :: y) :: after) = some v) ∧
  (∀ (rs : List (List Value)) (k j : Nat),
    (k = 0 ∨ j = 0 ∨ rs.length < k ∨ (∀ r, rs[k - 1]? = some r → r.length < j)) →
      (ValueExpr.result k j).resolve rs = none) ∧
  (∀ (rs : List (List Value)) (v : Value), (ValueExpr.literal v).resolve rs = some v) ∧
  ∀ (rs : List (List Value)) (l : ProgramLine) (d : Descriptor), l.resolve rs = some d ↔
    d.mnemonic = l.mnemonic ∧ d.files = l.files ∧ d.codes = l.codes ∧
      l.values.map (ValueExpr.resolve rs) = d.values.map some

/-- A table row's word that the decoder reads as an operation is run by the very next step (the
convention of log entry 2). -/
def Obligations.AFetchedTableWordRunsNext : Prop :=
  ∀ (s : State) (nbits w : Nat) (i : Instr), decodeTableWord nbits w = some i →
    step (s.withFetchWord nbits w) = exec i s

/-- An operation of the program takes its line off the program and puts one list of results after the
earlier ones, which stay as they were: one value for each operand of a READ, none of a WRITE (in program
order: R15, R135; the results of a run: R172). The program in State and its line taken off are the model's
choice (log entry 1), and so is one list for each operation, the empty one for a WRITE (log entry 24). -/
def Obligations.AStepAddsOneListOfResults : Prop :=
  ∀ (s t : State) (l : ProgramLine) (rest : List ProgramLine), s.program = l :: rest → step s = .next t →
    t.program = rest ∧ ∃ (i : Instr) (r : List Value), t.results = s.results ++ [r] ∧
      r.length = (if i.writes = [] then i.designators.length else 0) ∧
      ∃ d, l.resolve s.results = some d ∧ decode d = .ok i

/-! ### The READ patterns -/

/-- READ1 on a machine that faults on an unspecified bit: an invalid designator is refused, an
unspecified bit faults, and otherwise the result is `[RegRead(d1)]` and nothing else changes; R0 reads
as 0, PC as its parameter, and a narrow view after a wider write as the low bits; with the descriptor's
codes and the timing figures (R121). -/
def Obligations.Read1FaultsOrReturnsTheRegister : Prop :=
  ∀ (s : State) (d1 : Designator), s.params.unspecifiedRead = .fault →
    (d1.valid = false → exec (.read1 d1) s = .refused .reservedSpecifier) ∧
    (d1.valid = true → s.specified d1 = false → exec (.read1 d1) s = .fault .unspecifiedRead) ∧
    (d1.valid = true → s.specified d1 = true →
      exec (.read1 d1) s = .next ((s.logResults [s.regRead d1 s.draws]).advanceDraws 1)) ∧
    (d1 = ⟨.gpr, 0⟩ → ∀ t v, exec (.write1 d1 v) s = .next t →
      exec (.read1 d1) t = .next ((t.logResults [.bits 64 0#64]).advanceDraws 1)) ∧
    (d1 = ⟨.gpr, 0⟩ → exec (.read1 d1) s = .next ((s.logResults [.bits 64 0#64]).advanceDraws 1)) ∧
    (d1 = ⟨.spr, 0⟩ → exec (.read1 d1) s = .next ((s.logResults [.bits 64 s.params.pcValue]).advanceDraws 1)) ∧
    (∀ (e : Designator) (w w' : Nat) (b : BitVec w) (t : State), e.overlap s.params d1 = true →
      (d1.file = .fpr ∨ d1.file = .vr) → d1.width = .bits w' → w' < w → exec (.write1 e (.bits w b)) s = .next t →
      exec (.read1 d1) t = .next ((t.logResults [.bits w' (b.setWidth w')]).advanceDraws 1)) ∧
    ((encode (.read1 d1)).codes = ⟨6, d1.code⟩ ∧
      latencyCycles .READ1 = 1 ∧ throughputPerCycle .READ1 = 8)

/-- READ2 on a machine that faults on an unspecified bit: every designator is checked before any bit
is, the results are the two `RegRead`s of the state before the step, and nothing else changes; one
register may be read twice, or through two views; with the descriptor's codes and the timing figures
(R122). -/
def Obligations.Read2FaultsOrReturnsBothRegisters : Prop :=
  ∀ (s : State) (d1 d2 : Designator), s.params.unspecifiedRead = .fault →
    ((d1.valid && d2.valid) = false → exec (.read2 d1 d2) s = .refused .reservedSpecifier) ∧
    ((d1.valid && d2.valid) = true → (s.specified d1 && s.specified d2) = false →
      exec (.read2 d1 d2) s = .fault .unspecifiedRead) ∧
    ((d1.valid && d2.valid) = true → (s.specified d1 && s.specified d2) = true →
      exec (.read2 d1 d2) s =
        .next ((s.logResults [s.regRead d1 s.draws, s.regRead d2 (s.draws + 1)]).advanceDraws 2)) ∧
    (∀ d ∈ [d1, d2], d.valid = true → s.specified d = true →
      d ∉ ([⟨.spr, 4⟩, ⟨.spr, 8⟩, ⟨.spr, 10⟩, ⟨.spr, 11⟩] : List Designator) →
      ∀ k k', s.regRead d k = s.regRead d k') ∧
    (∀ v : BitVec 128, s.pf[0] = ⟨v, BitVec.allOnes 128⟩ → d1 = ⟨.fpr, 0⟩ → d2 = ⟨.fpr, 16⟩ →
      exec (.read2 d1 d2) s =
        .next ((s.logResults [.bits 32 (v.setWidth 32), .bits 64 (v.setWidth 64)]).advanceDraws 2)) ∧
    ((encode (.read2 d1 d2)).codes = ⟨12, d1.code ++ d2.code⟩ ∧
      latencyCycles .READ2 = 1 ∧ throughputPerCycle .READ2 = 4)

/-- READ3 on a machine that faults on an unspecified bit: as READ2, over three operands; with the
descriptor's codes and the timing figures (R123). -/
def Obligations.Read3FaultsOrReturnsAllThree : Prop :=
  ∀ (s : State) (d1 d2 d3 : Designator), s.params.unspecifiedRead = .fault →
    ((d1.valid && d2.valid && d3.valid) = false → exec (.read3 d1 d2 d3) s = .refused .reservedSpecifier) ∧
    ((d1.valid && d2.valid && d3.valid) = true → (s.specified d1 && s.specified d2 && s.specified d3) = false →
      exec (.read3 d1 d2 d3) s = .fault .unspecifiedRead) ∧
    ((d1.valid && d2.valid && d3.valid) = true → (s.specified d1 && s.specified d2 && s.specified d3) = true →
      exec (.read3 d1 d2 d3) s =
        .next ((s.logResults [s.regRead d1 s.draws, s.regRead d2 (s.draws + 1), s.regRead d3 (s.draws + 2)]).advanceDraws 3)) ∧
    (∀ d ∈ [d1, d2, d3], d.valid = true → s.specified d = true →
      d ∉ ([⟨.spr, 4⟩, ⟨.spr, 8⟩, ⟨.spr, 10⟩, ⟨.spr, 11⟩] : List Designator) →
      ∀ k k', s.regRead d k = s.regRead d k') ∧
    ((encode (.read3 d1 d2 d3)).codes = ⟨18, d1.code ++ d2.code ++ d3.code⟩ ∧
      latencyCycles .READ3 = 1 ∧ throughputPerCycle .READ3 = 2)

/-- READ4 on a machine that faults on an unspecified bit: as READ2, over four operands; after a write of
V0, the four views of its cell are its low bits; with the descriptor's codes and the timing figures
(R124). -/
def Obligations.Read4FaultsOrReturnsAllFour : Prop :=
  ∀ (s : State) (d1 d2 d3 d4 : Designator), s.params.unspecifiedRead = .fault →
    ((d1.valid && d2.valid && d3.valid && d4.valid) = false →
      exec (.read4 d1 d2 d3 d4) s = .refused .reservedSpecifier) ∧
    ((d1.valid && d2.valid && d3.valid && d4.valid) = true →
      (s.specified d1 && s.specified d2 && s.specified d3 && s.specified d4) = false →
      exec (.read4 d1 d2 d3 d4) s = .fault .unspecifiedRead) ∧
    ((d1.valid && d2.valid && d3.valid && d4.valid) = true →
      (s.specified d1 && s.specified d2 && s.specified d3 && s.specified d4) = true →
      exec (.read4 d1 d2 d3 d4) s =
        .next ((s.logResults [s.regRead d1 s.draws, s.regRead d2 (s.draws + 1), s.regRead d3 (s.draws + 2),
          s.regRead d4 (s.draws + 3)]).advanceDraws 4)) ∧
    (∀ d ∈ [d1, d2, d3, d4], d.valid = true → s.specified d = true →
      d ∉ ([⟨.spr, 4⟩, ⟨.spr, 8⟩, ⟨.spr, 10⟩, ⟨.spr, 11⟩] : List Designator) →
      ∀ k k', s.regRead d k = s.regRead d k') ∧
    (∀ (x : BitVec 512) (t : State), d1 = ⟨.vr, 0⟩ → d2 = ⟨.vr, 16⟩ → d3 = ⟨.vr, 24⟩ → d4 = ⟨.vr, 28⟩ →
      exec (.write1 d1 (.bits 512 x)) s = .next t →
      exec (.read4 d1 d2 d3 d4) t = .next ((t.logResults [.bits 512 x, .bits 256 (x.setWidth 256),
        .bits 128 (x.setWidth 128), .bits 64 (x.setWidth 64)]).advanceDraws 4)) ∧
    ((encode (.read4 d1 d2 d3 d4)).codes = ⟨24, d1.code ++ d2.code ++ d3.code ++ d4.code⟩ ∧
      latencyCycles .READ4 = 1 ∧ throughputPerCycle .READ4 = 1)

/-- On a machine that draws for an unspecified bit, as the one `State.reset` starts does, every READ of
valid designators completes, whatever was written before (R73's second treatment; that the machine takes
it is the model's choice, log entry 4). -/
def Obligations.ReadsCompleteWhereUnspecifiedBitsAreDrawn : Prop :=
  ∀ (s : State) (d1 d2 d3 d4 : Designator), s.params.unspecifiedRead = .draw →
    (d1.valid = true →
      exec (.read1 d1) s = .next ((s.logResults [s.regRead d1 s.draws]).advanceDraws 1)) ∧
    ((d1.valid && d2.valid) = true →
      exec (.read2 d1 d2) s =
        .next ((s.logResults [s.regRead d1 s.draws, s.regRead d2 (s.draws + 1)]).advanceDraws 2)) ∧
    ((d1.valid && d2.valid && d3.valid) = true →
      exec (.read3 d1 d2 d3) s =
        .next ((s.logResults [s.regRead d1 s.draws, s.regRead d2 (s.draws + 1), s.regRead d3 (s.draws + 2)]).advanceDraws 3)) ∧
    ((d1.valid && d2.valid && d3.valid && d4.valid) = true →
      exec (.read4 d1 d2 d3 d4) s =
        .next ((s.logResults [s.regRead d1 s.draws, s.regRead d2 (s.draws + 1), s.regRead d3 (s.draws + 2),
          s.regRead d4 (s.draws + 3)]).advanceDraws 4))

/-- No READ changes a register, a parameter or the program: only the results and the number of draws
(R70, R120). -/
def Obligations.ReadsChangeNoRegister : Prop :=
  ∀ (s t : State) (i : Instr), i.writes = [] → exec i s = .next t →
    (∀ l, t.cellAt l = s.cellAt l) ∧ t.ap = s.ap ∧ t.params = s.params ∧ t.program = s.program ∧
    t = { s with results := t.results, draws := t.draws }

/-- READ1 of R0 returns 0 and of a GPR whose 64 bits have a value those bits, on either kind of
machine; nothing else changes. On a machine that draws, each bit without a value is that bit of the draw
(R29, R70, R73; the draw is the model's choice, log entries 4 and 5). -/
def Obligations.ReadingAGprReturnsItsCell : Prop :=
  ∀ (s : State) (c : Code),
    (c = 0#6 → exec (.read1 ⟨.gpr, c⟩) s = .next ((s.logResults [.bits 64 0#64]).advanceDraws 1)) ∧
    (∀ (i : Fin 63) (v : BitVec 64), c.toNat = i.val + 1 → s.g[i] = ⟨v, BitVec.allOnes 64⟩ →
      exec (.read1 ⟨.gpr, c⟩) s = .next ((s.logResults [.bits 64 v]).advanceDraws 1)) ∧
    ∀ (i : Fin 63) (v k : BitVec 64), c.toNat = i.val + 1 → s.g[i] = ⟨v, k⟩ → s.params.unspecifiedRead = .draw →
      exec (.read1 ⟨.gpr, c⟩) s = .next ((s.logResults
        [.bits 64 ((v &&& k) ||| ((Config.freeBits s.draws).setWidth 64 &&& ~~~k))]).advanceDraws 1)

/-- READ1 of Fi, Di or Qi of a shared row returns the low 32, 64 or 128 bits of `PF[i]` where those have
a value (R38, R70; low-order placement: D5 of the spec). -/
def Obligations.ReadingASharedFprReturnsTheLowBits : Prop :=
  ∀ (s : State) (i : Fin 8) (v k : BitVec 128), s.pf[i] = ⟨v, k⟩ →
    (k.setWidth 32 = BitVec.allOnes 32 →
      exec (.read1 (RegName.f ⟨i.val, by omega⟩).designator) s =
        .next ((s.logResults [.bits 32 (v.setWidth 32)]).advanceDraws 1)) ∧
    (k.setWidth 64 = BitVec.allOnes 64 →
      exec (.read1 (RegName.d ⟨i.val, by omega⟩).designator) s =
        .next ((s.logResults [.bits 64 (v.setWidth 64)]).advanceDraws 1)) ∧
    (k = BitVec.allOnes 128 →
      exec (.read1 (RegName.q ⟨i.val, by omega⟩).designator) s =
        .next ((s.logResults [.bits 128 v]).advanceDraws 1))

/-- READ1 of F8 to F15, D8 to D15, Q8 to Q15: the register's own cell with `FP_ALIAS_ROWS` = 8, the low
bits of the shared cell with 16 (R37, R38, R70; the parameter: D7 of the spec). -/
def Obligations.ReadingAnUpperFprRowFollowsTheAliasParameter : Prop :=
  ∀ (s : State) (i : Fin 8),
    (s.params.fpAliasRows = .rows8 →
      (∀ v, s.fs[i] = ⟨v, BitVec.allOnes 32⟩ → exec (.read1 (RegName.f ⟨8 + i.val, by omega⟩).designator) s =
        .next ((s.logResults [.bits 32 v]).advanceDraws 1)) ∧
      (∀ v, s.fd[i] = ⟨v, BitVec.allOnes 64⟩ → exec (.read1 (RegName.d ⟨8 + i.val, by omega⟩).designator) s =
        .next ((s.logResults [.bits 64 v]).advanceDraws 1)) ∧
      (∀ v, s.fq[i] = ⟨v, BitVec.allOnes 128⟩ → exec (.read1 (RegName.q ⟨8 + i.val, by omega⟩).designator) s =
        .next ((s.logResults [.bits 128 v]).advanceDraws 1))) ∧
    (s.params.fpAliasRows = .rows16 → ∀ v, s.fq[i] = ⟨v, BitVec.allOnes 128⟩ →
      exec (.read1 (RegName.f ⟨8 + i.val, by omega⟩).designator) s =
        .next ((s.logResults [.bits 32 (v.setWidth 32)]).advanceDraws 1) ∧
      exec (.read1 (RegName.d ⟨8 + i.val, by omega⟩).designator) s =
        .next ((s.logResults [.bits 64 (v.setWidth 64)]).advanceDraws 1) ∧
      exec (.read1 (RegName.q ⟨8 + i.val, by omega⟩).designator) s =
        .next ((s.logResults [.bits 128 v]).advanceDraws 1))

/-- READ1 of APi returns the last value stored; where none was, it faults or draws as the machine does, and
two operands of one READ2 draw apart (R40, R70, R73; the domain: D9 of the spec; the draws: log entry 5). -/
def Obligations.ReadingAnApRegisterReturnsTheLastValueStored : Prop :=
  ∀ (s : State) (i : Fin 16),
    (s.ap[i].written = true → exec (.read1 (RegName.ap i).designator) s =
      .next ((s.logResults [.ap s.ap[i].val]).advanceDraws 1)) ∧
    (s.ap[i].written = false → s.params.unspecifiedRead = .fault →
      exec (.read1 (RegName.ap i).designator) s = .fault .unspecifiedRead) ∧
    (s.ap[i].written = false → s.params.unspecifiedRead = .draw →
      exec (.read1 (RegName.ap i).designator) s =
        .next ((s.logResults [.ap (Config.freeAp s.draws)]).advanceDraws 1) ∧
      exec (.read2 (RegName.ap i).designator (RegName.ap i).designator) s = .next ((s.logResults
        [.ap (Config.freeAp s.draws), .ap (Config.freeAp (s.draws + 1))]).advanceDraws 2))

/-- READ1 of Vj, V(16+j), V(24+j), V(28+j) returns the low 512, 256, 128 or 64 bits of `PV[j]` where
those have a value (R46, R70; low-order placement: D5 of the spec). -/
def Obligations.ReadingASharedVrReturnsTheLowBits : Prop :=
  ∀ (s : State) (j : Fin 4) (v k : BitVec 512), s.pv[j] = ⟨v, k⟩ →
    (k = BitVec.allOnes 512 → exec (.read1 (RegName.v ⟨j.val, by omega⟩).designator) s =
      .next ((s.logResults [.bits 512 v]).advanceDraws 1)) ∧
    (k.setWidth 256 = BitVec.allOnes 256 → exec (.read1 (RegName.v ⟨16 + j.val, by omega⟩).designator) s =
      .next ((s.logResults [.bits 256 (v.setWidth 256)]).advanceDraws 1)) ∧
    (k.setWidth 128 = BitVec.allOnes 128 → exec (.read1 (RegName.v ⟨24 + j.val, by omega⟩).designator) s =
      .next ((s.logResults [.bits 128 (v.setWidth 128)]).advanceDraws 1)) ∧
    (k.setWidth 64 = BitVec.allOnes 64 → exec (.read1 (RegName.v ⟨28 + j.val, by omega⟩).designator) s =
      .next ((s.logResults [.bits 64 (v.setWidth 64)]).advanceDraws 1))

/-- READ1 of V4 to V15 and of V20 to V23 returns the register's own cell where it has a value (R45,
R70; the table read as complete: D7 of the spec). -/
def Obligations.ReadingAnUnsharedVrReturnsItsCell : Prop :=
  ∀ s : State,
    (∀ (j : Fin 12) (v : BitVec 512), s.vw[j] = ⟨v, BitVec.allOnes 512⟩ →
      exec (.read1 (RegName.v ⟨4 + j.val, by omega⟩).designator) s =
        .next ((s.logResults [.bits 512 v]).advanceDraws 1)) ∧
    (∀ (j : Fin 4) (v : BitVec 256), s.vh[j] = ⟨v, BitVec.allOnes 256⟩ →
      exec (.read1 (RegName.v ⟨20 + j.val, by omega⟩).designator) s =
        .next ((s.logResults [.bits 256 v]).advanceDraws 1))

/-- READ1 of SPR SP, FP, LR returns the SPR's own cell, or the GPR R2, R8, R1 where `SPR_GPR_ALIAS` says
so, and of PRIORITY its cell, where those have a value (R54, R57, R67; storage: D12, D18 of the spec). -/
def Obligations.ReadingAStoredSprReturnsItsCell : Prop :=
  ∀ s : State,
    (s.params.sprGprAlias = .separate →
      (∀ v, s.sp = ⟨v, BitVec.allOnes 64⟩ → exec (.read1 (RegName.spr .sp).designator) s =
        .next ((s.logResults [.bits 64 v]).advanceDraws 1)) ∧
      (∀ v, s.fp = ⟨v, BitVec.allOnes 64⟩ → exec (.read1 (RegName.spr .fp).designator) s =
        .next ((s.logResults [.bits 64 v]).advanceDraws 1)) ∧
      (∀ v, s.lr = ⟨v, BitVec.allOnes 64⟩ → exec (.read1 (RegName.spr .lr).designator) s =
        .next ((s.logResults [.bits 64 v]).advanceDraws 1))) ∧
    (s.params.sprGprAlias = .shared →
      exec (.read1 (RegName.spr .sp).designator) s = exec (.read1 (RegName.r 2).designator) s ∧
      exec (.read1 (RegName.spr .fp).designator) s = exec (.read1 (RegName.r 8).designator) s ∧
      exec (.read1 (RegName.spr .lr).designator) s = exec (.read1 (RegName.r 1).designator) s) ∧
    (∀ v, s.priority = ⟨v, BitVec.allOnes 8⟩ → exec (.read1 (RegName.spr .priority).designator) s =
      .next ((s.logResults [.bits 8 v]).advanceDraws 1))

/-- PC, CORE_ID, THREAD_ID and FEATURES read as their parameters in every state, and the twelve named
features are bits 0 to 11 of FEATURES in the order of R62 (R53, R55, R56, R62; D14 and D17 of the spec). -/
def Obligations.ReadingAnIdentificationSprReturnsItsParameter : Prop :=
  ∀ s : State,
    exec (.read1 (RegName.spr .pc).designator) s =
      .next ((s.logResults [.bits 64 s.params.pcValue]).advanceDraws 1) ∧
    exec (.read1 (RegName.spr .coreId).designator) s =
      .next ((s.logResults [.bits 32 s.params.coreIdValue]).advanceDraws 1) ∧
    exec (.read1 (RegName.spr .threadId).designator) s =
      .next ((s.logResults [.bits 32 s.params.threadIdValue]).advanceDraws 1) ∧
    exec (.read1 (RegName.spr .features).designator) s =
      .next ((s.logResults [.bits 64 s.params.featuresValue]).advanceDraws 1) ∧
    s.feature .IEEE754 = s.params.featuresValue.getLsbD 0 ∧ s.feature .BFP = s.params.featuresValue.getLsbD 1 ∧
    s.feature .AP = s.params.featuresValue.getLsbD 2 ∧ s.feature .TAPERED = s.params.featuresValue.getLsbD 3 ∧
    s.feature .VECTOR = s.params.featuresValue.getLsbD 4 ∧ s.feature .MIMD = s.params.featuresValue.getLsbD 5 ∧
    s.feature .AI_ML = s.params.featuresValue.getLsbD 6 ∧ s.feature .CRYPTO = s.params.featuresValue.getLsbD 7 ∧
    s.feature .DEBUG = s.params.featuresValue.getLsbD 8 ∧ s.feature .TRACE = s.params.featuresValue.getLsbD 9 ∧
    s.feature .PROFILING = s.params.featuresValue.getLsbD 10 ∧
    s.feature .POWER_MGMT = s.params.featuresValue.getLsbD 11

/-- FLAGS reads as 48 drawn bits over `S_FLAGS`; CONFIG as the sizes and counts, eight drawn bits and
`S_CONFIG`, where the cells have a value; CACHE_CTRL and POWER_CTRL as a 64-bit draw in every state; and each
operand of a READ2 has a draw of its own (R59, R61, R63, R64, R120; D15, D16, D19 of the spec; which bits of
which draw: log entry 5). -/
def Obligations.ReadingFlagsAndConfigReturnsTheStoredBits : Prop :=
  ∀ s : State,
    let draw : Nat → Wide := fun k => Config.freeBits (s.draws + k)
    let sizes : BitVec 48 := s.params.memorySize ++ s.params.cacheSize ++ s.params.threadCount ++ s.params.coreCount
    (∀ v : BitVec 16, s.flags = ⟨v, BitVec.allOnes 16⟩ →
      exec (.read1 (RegName.spr .flags).designator) s =
        .next ((s.logResults [.bits 64 ((draw 0).extractLsb' 16 48 ++ v)]).advanceDraws 1) ∧
      exec (.read2 (RegName.spr .flags).designator (RegName.spr .flags).designator) s =
        .next ((s.logResults [.bits 64 ((draw 0).extractLsb' 16 48 ++ v),
          .bits 64 ((draw 1).extractLsb' 16 48 ++ v)]).advanceDraws 2)) ∧
    (∀ v : BitVec 8, s.config = ⟨v, BitVec.allOnes 8⟩ →
      exec (.read1 (RegName.spr .config).designator) s =
        .next ((s.logResults [.bits 64 (sizes ++ (draw 0).extractLsb' 8 8 ++ v)]).advanceDraws 1) ∧
      exec (.read2 (RegName.spr .config).designator (RegName.spr .config).designator) s =
        .next ((s.logResults [.bits 64 (sizes ++ (draw 0).extractLsb' 8 8 ++ v),
          .bits 64 (sizes ++ (draw 1).extractLsb' 8 8 ++ v)]).advanceDraws 2)) ∧
    ∀ n ∈ [SprName.cacheCtrl, SprName.powerCtrl],
      exec (.read1 (RegName.spr n).designator) s =
        .next ((s.logResults [.bits 64 ((draw 0).setWidth 64)]).advanceDraws 1) ∧
      exec (.read2 (RegName.spr n).designator (RegName.spr n).designator) s =
        .next ((s.logResults [.bits 64 ((draw 0).setWidth 64), .bits 64 ((draw 1).setWidth 64)]).advanceDraws 2)

/-! ### The WRITE patterns -/

/-- WRITE1: an invalid designator, a wrong width and an SPR's refusal in that order; otherwise
`RegWrite(d1, v1)` and an empty list of results; never a fault. A write of R0 changes nothing, one of F3
leaves the bits of its cell above 31 without a value (READ1 F3 returns it, READ1 D3 and Q3 fault on a
machine that does), one of F9 (8 alias rows) touches its own cell alone; with the descriptor's codes and
the timing figures (R131). -/
def Obligations.Write1IsRefusedOrWritesTheRegister : Prop :=
  ∀ (s : State) (d1 : Designator) (v1 : Value),
    (d1.valid = false → exec (.write1 d1 v1) s = .refused .reservedSpecifier) ∧
    (d1.valid = true → v1.width ≠ d1.width → exec (.write1 d1 v1) s = .refused .widthMismatch) ∧
    (d1.valid = true → v1.width = d1.width → ∀ r, writeRefusal s.params (d1, v1) = some r →
      exec (.write1 d1 v1) s = .refused r) ∧
    (d1.valid = true → v1.width = d1.width → writeRefusal s.params (d1, v1) = none →
      exec (.write1 d1 v1) s = .next ((s.regWrite d1 v1).logResults [])) ∧
    (∀ r, exec (.write1 d1 v1) s ≠ .fault r) ∧
    (∀ r, writeRefusal s.params (d1, v1) = some r → r = .unmodelledWrite ∨ r = .reservedFieldWrite) ∧
    (∀ v : BitVec 64, d1 = ⟨.gpr, 0⟩ → v1 = .bits 64 v → exec (.write1 d1 v1) s = .next (s.logResults [])) ∧
    (∀ a : BitVec 32, d1 = ⟨.fpr, 3⟩ → v1 = .bits 32 a → exec (.write1 d1 v1) s =
      .next (({ s with pf := s.pf.set 3 ⟨a.setWidth 128, 0xFFFFFFFF#128⟩ } : State).logResults [])) ∧
    (∀ a : BitVec 32, s.params.fpAliasRows = .rows8 → d1 = ⟨.fpr, 9⟩ → v1 = .bits 32 a →
      exec (.write1 d1 v1) s = .next (({ s with fs := s.fs.set 1 ⟨a, BitVec.allOnes 32⟩ } : State).logResults [])) ∧
    (∀ (a : BitVec 32) (t : State), d1 = ⟨.fpr, 3⟩ → v1 = .bits 32 a → exec (.write1 d1 v1) s = .next t →
      exec (.read1 ⟨.fpr, 3⟩) t = .next ((t.logResults [.bits 32 a]).advanceDraws 1) ∧
      (s.params.unspecifiedRead = .fault → exec (.read1 ⟨.fpr, 19⟩) t = .fault .unspecifiedRead ∧
        exec (.read1 ⟨.fpr, 35⟩) t = .fault .unspecifiedRead)) ∧
    ((encode (.write1 d1 v1)).codes = ⟨6, d1.code⟩ ∧
      latencyCycles .WRITE1 = 1 ∧ throughputPerCycle .WRITE1 = 4)

/-- WRITE2: the checks in order, the overlap among them; otherwise both `RegWrite`s; never a fault. The
pairs R132 names overlap, or do not, as it says, and two writes of R0 are allowed and do nothing; with the descriptor's codes and the timing
figures (R132). -/
def Obligations.Write2IsRefusedOrWritesBothRegisters : Prop :=
  ∀ (s : State) (d1 d2 : Designator) (v1 v2 : Value),
    ((d1.valid && d2.valid) = false → exec (.write2 d1 v1 d2 v2) s = .refused .reservedSpecifier) ∧
    ((d1.valid && d2.valid) = true → ¬(v1.width = d1.width ∧ v2.width = d2.width) →
      exec (.write2 d1 v1 d2 v2) s = .refused .widthMismatch) ∧
    ((d1.valid && d2.valid) = true → v1.width = d1.width → v2.width = d2.width →
      (d1.overlap s.params d2 = true → exec (.write2 d1 v1 d2 v2) s = .refused .writeConflict) ∧
      (d1.overlap s.params d2 = false → ∀ r, writeRefusal s.params (d1, v1) = some r →
        exec (.write2 d1 v1 d2 v2) s = .refused r) ∧
      (d1.overlap s.params d2 = false → writeRefusal s.params (d1, v1) = none →
        ∀ r, writeRefusal s.params (d2, v2) = some r → exec (.write2 d1 v1 d2 v2) s = .refused r) ∧
      (d1.overlap s.params d2 = false → writeRefusal s.params (d1, v1) = none →
        writeRefusal s.params (d2, v2) = none →
        exec (.write2 d1 v1 d2 v2) s = .next (((s.regWrite d1 v1).regWrite d2 v2).logResults []))) ∧
    (∀ r, exec (.write2 d1 v1 d2 v2) s ≠ .fault r) ∧
    (Designator.overlap s.params ⟨.gpr, 5⟩ ⟨.gpr, 5⟩ = true ∧
      Designator.overlap s.params ⟨.fpr, 0⟩ ⟨.fpr, 32⟩ = true ∧
      Designator.overlap s.params ⟨.vr, 2⟩ ⟨.vr, 30⟩ = true ∧
      Designator.overlap s.params ⟨.gpr, 32⟩ (RegName.gpr (.addr 0)).designator = true ∧
      (s.params.fpAliasRows = .rows8 → Designator.overlap s.params ⟨.fpr, 8⟩ ⟨.fpr, 24⟩ = false) ∧
      (s.params.sprGprAlias = .separate → Designator.overlap s.params ⟨.gpr, 2⟩ ⟨.spr, 1⟩ = false)) ∧
    (∀ a b : BitVec 64, d1 = ⟨.gpr, 0⟩ → d2 = ⟨.gpr, 0⟩ → v1 = .bits 64 a → v2 = .bits 64 b →
      exec (.write2 d1 v1 d2 v2) s = .next (s.logResults [])) ∧
    ((encode (.write2 d1 v1 d2 v2)).codes = ⟨12, d1.code ++ d2.code⟩ ∧
      latencyCycles .WRITE2 = 1 ∧ throughputPerCycle .WRITE2 = 2)

/-- WRITE3: as WRITE2, the overlap test over all three pairs of operands; with the descriptor's codes
and the timing figures (R133). -/
def Obligations.Write3IsRefusedOrWritesAllThree : Prop :=
  ∀ (s : State) (d1 d2 d3 : Designator) (v1 v2 v3 : Value),
    ((d1.valid && d2.valid && d3.valid) = false →
      exec (.write3 d1 v1 d2 v2 d3 v3) s = .refused .reservedSpecifier) ∧
    ((d1.valid && d2.valid && d3.valid) = true →
      ¬(v1.width = d1.width ∧ v2.width = d2.width ∧ v3.width = d3.width) →
      exec (.write3 d1 v1 d2 v2 d3 v3) s = .refused .widthMismatch) ∧
    ((d1.valid && d2.valid && d3.valid) = true → v1.width = d1.width → v2.width = d2.width → v3.width = d3.width →
      ((d1.overlap s.params d2 || d1.overlap s.params d3 || d2.overlap s.params d3) = true →
        exec (.write3 d1 v1 d2 v2 d3 v3) s = .refused .writeConflict) ∧
      ((d1.overlap s.params d2 || d1.overlap s.params d3 || d2.overlap s.params d3) = false →
        (∀ r, writeRefusal s.params (d1, v1) = some r → exec (.write3 d1 v1 d2 v2 d3 v3) s = .refused r) ∧
        (writeRefusal s.params (d1, v1) = none → ∀ r, writeRefusal s.params (d2, v2) = some r →
          exec (.write3 d1 v1 d2 v2 d3 v3) s = .refused r) ∧
        (writeRefusal s.params (d1, v1) = none → writeRefusal s.params (d2, v2) = none →
          ∀ r, writeRefusal s.params (d3, v3) = some r → exec (.write3 d1 v1 d2 v2 d3 v3) s = .refused r) ∧
        (writeRefusal s.params (d1, v1) = none → writeRefusal s.params (d2, v2) = none →
          writeRefusal s.params (d3, v3) = none →
          exec (.write3 d1 v1 d2 v2 d3 v3) s =
            .next ((((s.regWrite d1 v1).regWrite d2 v2).regWrite d3 v3).logResults [])))) ∧
    (∀ r, exec (.write3 d1 v1 d2 v2 d3 v3) s ≠ .fault r) ∧
    ((encode (.write3 d1 v1 d2 v2 d3 v3)).codes = ⟨18, d1.code ++ d2.code ++ d3.code⟩ ∧
      latencyCycles .WRITE3 = 1 ∧ throughputPerCycle .WRITE3 = 1)

/-- WRITE4: as WRITE2, the overlap test over all six pairs of operands; with the descriptor's codes
and the timing figures (R134). -/
def Obligations.Write4IsRefusedOrWritesAllFour : Prop :=
  ∀ (s : State) (d1 d2 d3 d4 : Designator) (v1 v2 v3 v4 : Value),
    ((d1.valid && d2.valid && d3.valid && d4.valid) = false →
      exec (.write4 d1 v1 d2 v2 d3 v3 d4 v4) s = .refused .reservedSpecifier) ∧
    ((d1.valid && d2.valid && d3.valid && d4.valid) = true →
      ¬(v1.width = d1.width ∧ v2.width = d2.width ∧ v3.width = d3.width ∧ v4.width = d4.width) →
      exec (.write4 d1 v1 d2 v2 d3 v3 d4 v4) s = .refused .widthMismatch) ∧
    ((d1.valid && d2.valid && d3.valid && d4.valid) = true →
      v1.width = d1.width → v2.width = d2.width → v3.width = d3.width → v4.width = d4.width →
      ((d1.overlap s.params d2 || d1.overlap s.params d3 || d1.overlap s.params d4 ||
          d2.overlap s.params d3 || d2.overlap s.params d4 || d3.overlap s.params d4) = true →
        exec (.write4 d1 v1 d2 v2 d3 v3 d4 v4) s = .refused .writeConflict) ∧
      ((d1.overlap s.params d2 || d1.overlap s.params d3 || d1.overlap s.params d4 ||
          d2.overlap s.params d3 || d2.overlap s.params d4 || d3.overlap s.params d4) = false →
        (∀ r, writeRefusal s.params (d1, v1) = some r →
          exec (.write4 d1 v1 d2 v2 d3 v3 d4 v4) s = .refused r) ∧
        (writeRefusal s.params (d1, v1) = none → ∀ r, writeRefusal s.params (d2, v2) = some r →
          exec (.write4 d1 v1 d2 v2 d3 v3 d4 v4) s = .refused r) ∧
        (writeRefusal s.params (d1, v1) = none → writeRefusal s.params (d2, v2) = none →
          ∀ r, writeRefusal s.params (d3, v3) = some r → exec (.write4 d1 v1 d2 v2 d3 v3 d4 v4) s = .refused r) ∧
        (writeRefusal s.params (d1, v1) = none → writeRefusal s.params (d2, v2) = none →
          writeRefusal s.params (d3, v3) = none → ∀ r, writeRefusal s.params (d4, v4) = some r →
          exec (.write4 d1 v1 d2 v2 d3 v3 d4 v4) s = .refused r) ∧
        (writeRefusal s.params (d1, v1) = none → writeRefusal s.params (d2, v2) = none →
          writeRefusal s.params (d3, v3) = none → writeRefusal s.params (d4, v4) = none →
          exec (.write4 d1 v1 d2 v2 d3 v3 d4 v4) s =
            .next (((((s.regWrite d1 v1).regWrite d2 v2).regWrite d3 v3).regWrite d4 v4).logResults [])))) ∧
    (∀ r, exec (.write4 d1 v1 d2 v2 d3 v3 d4 v4) s ≠ .fault r) ∧
    ((encode (.write4 d1 v1 d2 v2 d3 v3 d4 v4)).codes = ⟨24, d1.code ++ d2.code ++ d3.code ++ d4.code⟩ ∧
      latencyCycles .WRITE4 = 1 ∧ throughputPerCycle .WRITE4 = 1)

/-- WRITE1 of a 64-bit value to R0 completes and changes no register; to another GPR it stores the
value in its cell and changes nothing else (R71; the write to R0: D4 of the spec). -/
def Obligations.WritingAGprStoresTheValue : Prop :=
  ∀ (s : State) (c : Code) (v : BitVec 64),
    (c = 0#6 → exec (.write1 ⟨.gpr, c⟩ (.bits 64 v)) s = .next (s.logResults [])) ∧
    ∀ i : Fin 63, c.toNat = i.val + 1 →
      exec (.write1 ⟨.gpr, c⟩ (.bits 64 v)) s =
        .next (({ s with g := s.g.set i ⟨v, BitVec.allOnes 64⟩ } : State).logResults [])

/-- WRITE1 of Fi, Di or Qi of a shared row puts the value in the low bits of `PF[i]` and leaves every
bit above without a value (R38, R39, R71; D5 and D6 of the spec). -/
def Obligations.WritingASharedFprUnspecifiesTheUpperBits : Prop :=
  ∀ (s : State) (i : Fin 8),
    (∀ v : BitVec 32, exec (.write1 (RegName.f ⟨i.val, by omega⟩).designator (.bits 32 v)) s =
      .next (({ s with pf := s.pf.set i ⟨v.setWidth 128, 0xFFFFFFFF#128⟩ } : State).logResults [])) ∧
    (∀ v : BitVec 64, exec (.write1 (RegName.d ⟨i.val, by omega⟩).designator (.bits 64 v)) s =
      .next (({ s with pf := s.pf.set i ⟨v.setWidth 128, 0xFFFFFFFFFFFFFFFF#128⟩ } : State).logResults [])) ∧
    (∀ v : BitVec 128, exec (.write1 (RegName.q ⟨i.val, by omega⟩).designator (.bits 128 v)) s =
      .next (({ s with pf := s.pf.set i ⟨v, BitVec.allOnes 128⟩ } : State).logResults []))

/-- WRITE1 of F8 to F15, D8 to D15, Q8 to Q15 writes the register's own cell with `FP_ALIAS_ROWS` = 8 and
the shared cell, the bits above the view without a value, with 16 (R37, R39, R71; D6 and D7 of the
spec). -/
def Obligations.WritingAnUpperFprRowFollowsTheAliasParameter : Prop :=
  ∀ (s : State) (i : Fin 8) (a : BitVec 32) (b : BitVec 64) (q : BitVec 128),
    (s.params.fpAliasRows = .rows8 →
      exec (.write1 (RegName.f ⟨8 + i.val, by omega⟩).designator (.bits 32 a)) s =
        .next (({ s with fs := s.fs.set i ⟨a, BitVec.allOnes 32⟩ } : State).logResults []) ∧
      exec (.write1 (RegName.d ⟨8 + i.val, by omega⟩).designator (.bits 64 b)) s =
        .next (({ s with fd := s.fd.set i ⟨b, BitVec.allOnes 64⟩ } : State).logResults [])) ∧
    (s.params.fpAliasRows = .rows16 →
      exec (.write1 (RegName.f ⟨8 + i.val, by omega⟩).designator (.bits 32 a)) s =
        .next (({ s with fq := s.fq.set i ⟨a.setWidth 128, 0xFFFFFFFF#128⟩ } : State).logResults []) ∧
      exec (.write1 (RegName.d ⟨8 + i.val, by omega⟩).designator (.bits 64 b)) s =
        .next (({ s with fq := s.fq.set i ⟨b.setWidth 128, 0xFFFFFFFFFFFFFFFF#128⟩ } : State).logResults [])) ∧
    exec (.write1 (RegName.q ⟨8 + i.val, by omega⟩).designator (.bits 128 q)) s =
      .next (({ s with fq := s.fq.set i ⟨q, BitVec.allOnes 128⟩ } : State).logResults [])

/-- WRITE1 of an `APValue` to APi stores it and changes nothing else; a bit value there is refused (R40,
R71, R130; the domain: D9 of the spec). -/
def Obligations.WritingAnApRegisterStoresTheValue : Prop :=
  ∀ (s : State) (i : Fin 16) (a : APValue),
    exec (.write1 (RegName.ap i).designator (.ap a)) s =
      .next (({ s with ap := s.ap.set i ⟨a, true⟩ } : State).logResults []) ∧
    ∀ (w : Nat) (b : BitVec w),
      exec (.write1 (RegName.ap i).designator (.bits w b)) s = .refused .widthMismatch

/-- WRITE1 of Vj, V(16+j), V(24+j), V(28+j) puts the value in the low bits of `PV[j]` and leaves every bit
above without a value; of V4 to V15 and V20 to V23 it writes the register's own cell (R46, R47, R71; D5,
D6, D7 of the spec). -/
def Obligations.WritingAVrUnspecifiesTheUpperBits : Prop :=
  ∀ (s : State) (a : BitVec 512) (b : BitVec 256) (c : BitVec 128) (d : BitVec 64),
    (∀ j : Fin 4,
      exec (.write1 (RegName.v ⟨j.val, by omega⟩).designator (.bits 512 a)) s =
        .next (({ s with pv := s.pv.set j ⟨a, BitVec.allOnes 512⟩ } : State).logResults []) ∧
      exec (.write1 (RegName.v ⟨16 + j.val, by omega⟩).designator (.bits 256 b)) s =
        .next (({ s with pv := s.pv.set j ⟨b.setWidth 512, (BitVec.allOnes 256).setWidth 512⟩ } : State).logResults []) ∧
      exec (.write1 (RegName.v ⟨24 + j.val, by omega⟩).designator (.bits 128 c)) s =
        .next (({ s with pv := s.pv.set j ⟨c.setWidth 512, (BitVec.allOnes 128).setWidth 512⟩ } : State).logResults []) ∧
      exec (.write1 (RegName.v ⟨28 + j.val, by omega⟩).designator (.bits 64 d)) s =
        .next (({ s with pv := s.pv.set j ⟨d.setWidth 512, (BitVec.allOnes 64).setWidth 512⟩ } : State).logResults []) ∧
      exec (.write1 (RegName.v ⟨20 + j.val, by omega⟩).designator (.bits 256 b)) s =
        .next (({ s with vh := s.vh.set j ⟨b, BitVec.allOnes 256⟩ } : State).logResults [])) ∧
    ∀ j : Fin 12, exec (.write1 (RegName.v ⟨4 + j.val, by omega⟩).designator (.bits 512 a)) s =
      .next (({ s with vw := s.vw.set j ⟨a, BitVec.allOnes 512⟩ } : State).logResults [])

/-- WRITE1 of SPR SP, FP, LR stores the value, in the GPR R2, R8, R1 where `SPR_GPR_ALIAS` says so; of
PRIORITY it stores the 8 bits (R54, R57, R67; D12 and D18 of the spec). -/
def Obligations.WritingAStoredSprStoresTheValue : Prop :=
  ∀ (s : State) (v : BitVec 64) (p : BitVec 8),
    (s.params.sprGprAlias = .separate →
      exec (.write1 (RegName.spr .sp).designator (.bits 64 v)) s =
        .next (({ s with sp := ⟨v, BitVec.allOnes 64⟩ } : State).logResults []) ∧
      exec (.write1 (RegName.spr .fp).designator (.bits 64 v)) s =
        .next (({ s with fp := ⟨v, BitVec.allOnes 64⟩ } : State).logResults []) ∧
      exec (.write1 (RegName.spr .lr).designator (.bits 64 v)) s =
        .next (({ s with lr := ⟨v, BitVec.allOnes 64⟩ } : State).logResults [])) ∧
    (s.params.sprGprAlias = .shared →
      exec (.write1 (RegName.spr .sp).designator (.bits 64 v)) s =
        exec (.write1 (RegName.r 2).designator (.bits 64 v)) s ∧
      exec (.write1 (RegName.spr .fp).designator (.bits 64 v)) s =
        exec (.write1 (RegName.r 8).designator (.bits 64 v)) s ∧
      exec (.write1 (RegName.spr .lr).designator (.bits 64 v)) s =
        exec (.write1 (RegName.r 1).designator (.bits 64 v)) s) ∧
    exec (.write1 (RegName.spr .priority).designator (.bits 8 p)) s =
      .next (({ s with priority := ⟨p, BitVec.allOnes 8⟩ } : State).logResults [])

/-- WRITE1 of FLAGS stores the sixteen named flags where the bits above are zero, each in its bit of R58,
and is refused where one above is not (R58, R59, R67; D15 of the spec). -/
def Obligations.WritingFlagsStoresTheNamedFlags : Prop :=
  ∀ (s : State) (hi : BitVec 48) (lo : BitVec 16),
    (hi = 0#48 →
      let t := ({ s with flags := ⟨lo, BitVec.allOnes 16⟩ } : State).logResults []
      exec (.write1 (RegName.spr .flags).designator (.bits 64 (hi ++ lo))) s = .next t ∧
      t.flag? .ZF = some (lo.getLsbD 0) ∧ t.flag? .SF = some (lo.getLsbD 1) ∧
      t.flag? .OF = some (lo.getLsbD 2) ∧ t.flag? .CF = some (lo.getLsbD 3) ∧
      t.flag? .PF = some (lo.getLsbD 4) ∧ t.flag? .AF = some (lo.getLsbD 5) ∧
      t.flag? .DF = some (lo.getLsbD 6) ∧ t.flag? .IF = some (lo.getLsbD 7) ∧
      t.flag? .TF = some (lo.getLsbD 8) ∧ t.flag? .IOPL = some (lo.getLsbD 9) ∧
      t.flag? .NT = some (lo.getLsbD 10) ∧ t.flag? .RF = some (lo.getLsbD 11) ∧
      t.flag? .VM = some (lo.getLsbD 12) ∧ t.flag? .AC = some (lo.getLsbD 13) ∧
      t.flag? .VIF = some (lo.getLsbD 14) ∧ t.flag? .VIP = some (lo.getLsbD 15)) ∧
    (hi ≠ 0#48 → exec (.write1 (RegName.spr .flags).designator (.bits 64 (hi ++ lo))) s =
      .refused .reservedFieldWrite)

/-- WRITE1 of CONFIG: a nonzero reserved field is refused first, then a changed count or size; otherwise
the eight enables are stored, each in its bit of R60 (R60, R61, R67; D16 of the spec). -/
def Obligations.WritingConfigStoresTheEnables : Prop :=
  ∀ (s : State) (hi : BitVec 48) (mid lo : BitVec 8),
    (mid ≠ 0#8 → exec (.write1 (RegName.spr .config).designator (.bits 64 (hi ++ mid ++ lo))) s =
      .refused .reservedFieldWrite) ∧
    (mid = 0#8 → hi ≠ s.params.memorySize ++ s.params.cacheSize ++ s.params.threadCount ++ s.params.coreCount →
      exec (.write1 (RegName.spr .config).designator (.bits 64 (hi ++ mid ++ lo))) s = .refused .unmodelledWrite) ∧
    (mid = 0#8 → hi = s.params.memorySize ++ s.params.cacheSize ++ s.params.threadCount ++ s.params.coreCount →
      let t := ({ s with config := ⟨lo, BitVec.allOnes 8⟩ } : State).logResults []
      exec (.write1 (RegName.spr .config).designator (.bits 64 (hi ++ mid ++ lo))) s = .next t ∧
      t.enable? .FPU_EN = some (lo.getLsbD 0) ∧ t.enable? .VEC_EN = some (lo.getLsbD 1) ∧
      t.enable? .MIMD_EN = some (lo.getLsbD 2) ∧ t.enable? .AI_EN = some (lo.getLsbD 3) ∧
      t.enable? .CACHE_EN = some (lo.getLsbD 4) ∧ t.enable? .TLB_EN = some (lo.getLsbD 5) ∧
      t.enable? .DEBUG_EN = some (lo.getLsbD 6) ∧ t.enable? .TRACE_EN = some (lo.getLsbD 7))

/-- WRITE1 of a value of its width to PC, CORE_ID, THREAD_ID, FEATURES, CACHE_CTRL or POWER_CTRL is
refused, and so is every READ1 and WRITE1 of RESERVED0 to RESERVED3 (R53, R55, R56, R62 to R65; D14,
D17, D19, D20 of the spec). -/
def Obligations.WritingAnUnmodelledSprIsRefused : Prop :=
  ∀ (s : State) (v : BitVec 64) (w : BitVec 32) (u : Value) (i : Fin 4),
    exec (.write1 (RegName.spr .pc).designator (.bits 64 v)) s = .refused .unmodelledWrite ∧
    exec (.write1 (RegName.spr .coreId).designator (.bits 32 w)) s = .refused .unmodelledWrite ∧
    exec (.write1 (RegName.spr .threadId).designator (.bits 32 w)) s = .refused .unmodelledWrite ∧
    exec (.write1 (RegName.spr .features).designator (.bits 64 v)) s = .refused .unmodelledWrite ∧
    exec (.write1 (RegName.spr .cacheCtrl).designator (.bits 64 v)) s = .refused .unmodelledWrite ∧
    exec (.write1 (RegName.spr .powerCtrl).designator (.bits 64 v)) s = .refused .unmodelledWrite ∧
    exec (.read1 (RegName.spr (.reserved i)).designator) s = .refused .reservedSpecifier ∧
    exec (.write1 (RegName.spr (.reserved i)).designator u) s = .refused .reservedSpecifier

/-- Every WRITE changes only the cells of the registers it names: every other cell, the parameters, the
program and the draws stay, and one empty list of results is added (R71, R130). -/
def Obligations.WritesChangeOnlyTheCellsTheyName : Prop :=
  ∀ (s t : State) (i : Instr), i.writes ≠ [] → exec i s = .next t →
    (∀ l : Loc, (∀ d ∈ i.designators, d.loc s.params ≠ some l) → t.cellAt l = s.cellAt l) ∧
    (∀ k : Fin 16, (∀ d ∈ i.designators, d.loc s.params ≠ some (.ap k)) → t.ap[k] = s.ap[k]) ∧
    t.params = s.params ∧ t.program = s.program ∧ t.draws = s.draws ∧ t.results = s.results ++ [[]]

/-- The order of the operands of a WRITE that completes does not matter: a WRITE of the same pairs in any
other order leads to the same state, for two, three and four operands (R130). -/
def Obligations.OperandOrderOfAWriteDoesNotMatter : Prop :=
  ∀ (s t : State) (i j : Instr), i.writes ≠ [] → i.writes.Perm j.writes →
    exec i s = .next t → exec j s = .next t

/-- No operation but a WRITE that names FLAGS changes FLAGS: none sets a flag as a side effect (R125,
R130). -/
def Obligations.NoOperationSetsAFlagAsASideEffect : Prop :=
  ∀ (s t : State) (i : Instr), exec i s = .next t → (⟨.spr, 4⟩ : Designator) ∉ i.writes.map Prod.fst →
    t.flags = s.flags

/-! ### Sequences -/

/-- A READ1 straight after a WRITE1 of an overlapping register returns the written value, through a view
no wider its low bits, on either kind of machine; of FLAGS and CONFIG the bits that are stored (R125,
R135, R163). -/
def Obligations.AReadAfterAnOverlappingWriteSeesTheValue : Prop :=
  ∀ (s t : State) (d e : Designator) (w w' : Nat) (b : BitVec w),
    exec (.write1 d (.bits w b)) s = .next t → d.overlap s.params e = true → e.width = .bits w' → w' ≤ w →
    ∃ r : BitVec w', exec (.read1 e) t = .next ((t.logResults [.bits w' r]).advanceDraws 1) ∧
      (e ≠ ⟨.spr, 4⟩ → e ≠ ⟨.spr, 8⟩ → r = b.setWidth w') ∧
      (e = ⟨.spr, 4⟩ → r.setWidth 16 = b.setWidth 16) ∧ (e = ⟨.spr, 8⟩ → r.setWidth 8 = b.setWidth 8)

/-- A READ1 through a view wider than the last WRITE1 of the cell meets bits without a value: it faults
on a machine that faults on one (R39, R47, R73; D6 of the spec). -/
def Obligations.AWiderReadAfterANarrowWriteFaults : Prop :=
  ∀ (s t : State) (d e : Designator) (w w' : Nat) (b : BitVec w),
    exec (.write1 d (.bits w b)) s = .next t → d.overlap s.params e = true → e.width = .bits w' → w < w' →
    s.params.unspecifiedRead = .fault → exec (.read1 e) t = .fault .unspecifiedRead

/-- A WRITE1 changes nothing about reading a register it does not overlap: the same values for the same
draws, and a value where there was one (R71). -/
def Obligations.AWriteLeavesEveryOtherRegister : Prop :=
  ∀ (s t : State) (d e : Designator) (v : Value), exec (.write1 d v) s = .next t → e.valid = true →
    d.overlap s.params e = false → t.specified e = s.specified e ∧ ∀ k, t.regRead e k = s.regRead e k

/-- Of two WRITE1s of one register the later one stays: the state is the one the later alone would have
left, but for the two empty lists of results (R135, R164). -/
def Obligations.TheLaterOfTwoWritesStays : Prop :=
  ∀ (s t : State) (d : Designator) (a b : Value), exec (.write1 d a) s = .next t →
    ∀ u, exec (.write1 d b) s = .next u → exec (.write1 d b) t = .next (u.logResults [])

/-! ### The whole machine -/

/-- Every step keeps the cells sound: an unspecified bit is held as 0, and the bits that have a value are
those below one of the views of the cell (R74: the segments that have a value). That a cell holds 0 in
place of unspecified bits, and an unwritten AP cell its token 0, is the model's choice (log entry 3). -/
def Obligations.EveryStepKeepsTheCellsSound : Prop :=
  ∀ s t : State, s.CellsSound → step s = .next t → t.CellsSound

/-- The cells are sound after reset: no bit has a value (R75; D11 of the spec), and a cell holds 0 in place
of unspecified bits, an unwritten AP cell its token 0, which is the model's choice (log entry 3). -/
def Obligations.TheCellsAreSoundAfterReset : Prop := State.reset.CellsSound

/-- No step changes a parameter: PC, CORE_ID, THREAD_ID, FEATURES and CONFIG[63:16] read the same in a
whole run (R53, R136). -/
def Obligations.NoStepChangesAParameter : Prop :=
  ∀ s t : State, step s = .next t → t.params = s.params

/-- A machine that draws for an unspecified bit never faults (R73, R141; the treatment is the model's
choice, log entry 4). -/
def Obligations.ADrawingMachineNeverFaults : Prop :=
  ∀ s : State, s.params.unspecifiedRead = .draw → ∀ r, step s ≠ .fault r

/-- An operation faults only where it is a READ of valid designators, one of them with an unspecified
bit, on a machine that faults on one: no WRITE ever faults (R120, R130, R141). -/
def Obligations.OnlyAReadOfAnUnspecifiedBitFaults : Prop :=
  ∀ (s : State) (i : Instr) (r : Fault), exec i s = .fault r ↔
    r = .unspecifiedRead ∧ i.writes = [] ∧ s.params.unspecifiedRead = .fault ∧
      (∀ d ∈ i.designators, d.valid = true) ∧ ∃ d ∈ i.designators, s.specified d = false

/-- A READ is refused only for an invalid designator; a WRITE only for one of the five reasons, and an
operation with an invalid designator always for that one (R141, R143). -/
def Obligations.OperationsAreRefusedForTheNamedReasonsOnly : Prop :=
  ∀ (s : State) (i : Instr),
    (i.designatorsValid = false ↔ exec i s = .refused .reservedSpecifier) ∧
    ∀ r, exec i s = .refused r → r = .reservedSpecifier ∨ (i.writes ≠ [] ∧
      (r = .widthMismatch ∨ r = .writeConflict ∨ r = .unmodelledWrite ∨ r = .reservedFieldWrite))

/-- An operation that names no SPR neither reads nor changes the enables of CONFIG or the FEATURES
parameter: with other enables and features it does the same (R66; D21 of the spec). -/
def Obligations.EnablesAndFeaturesGateNoRegister : Prop :=
  ∀ (s : State) (i : Instr) (c : Cell 8) (f : BitVec 64), (∀ d ∈ i.designators, d.file ≠ .spr) →
    exec i { s with config := c, params := { s.params with featuresValue := f } } =
      match exec i s with
      | .next t => .next { t with config := c, params := { t.params with featuresValue := f } }
      | .fault r => .fault r
      | .refused r => .refused r
end

