-- ==== Sys2Proof/Laws/State.lean ====
section
/-! SUPPORT. The small lemmas of State: every field after every update. -/

namespace Sys2Proof.Machine

@[simp] theorem State.logResults_g (s : State) (r : List Value) : (s.logResults r).g = s.g := rfl
@[simp] theorem State.logResults_pf (s : State) (r : List Value) : (s.logResults r).pf = s.pf := rfl
@[simp] theorem State.logResults_fs (s : State) (r : List Value) : (s.logResults r).fs = s.fs := rfl
@[simp] theorem State.logResults_fd (s : State) (r : List Value) : (s.logResults r).fd = s.fd := rfl
@[simp] theorem State.logResults_fq (s : State) (r : List Value) : (s.logResults r).fq = s.fq := rfl
@[simp] theorem State.logResults_ap (s : State) (r : List Value) : (s.logResults r).ap = s.ap := rfl
@[simp] theorem State.logResults_pv (s : State) (r : List Value) : (s.logResults r).pv = s.pv := rfl
@[simp] theorem State.logResults_vw (s : State) (r : List Value) : (s.logResults r).vw = s.vw := rfl
@[simp] theorem State.logResults_vh (s : State) (r : List Value) : (s.logResults r).vh = s.vh := rfl
@[simp] theorem State.logResults_sp (s : State) (r : List Value) : (s.logResults r).sp = s.sp := rfl
@[simp] theorem State.logResults_fp (s : State) (r : List Value) : (s.logResults r).fp = s.fp := rfl
@[simp] theorem State.logResults_lr (s : State) (r : List Value) : (s.logResults r).lr = s.lr := rfl
@[simp] theorem State.logResults_flags (s : State) (r : List Value) : (s.logResults r).flags = s.flags := rfl
@[simp] theorem State.logResults_priority (s : State) (r : List Value) : (s.logResults r).priority = s.priority := rfl
@[simp] theorem State.logResults_config (s : State) (r : List Value) : (s.logResults r).config = s.config := rfl
@[simp] theorem State.logResults_params (s : State) (r : List Value) : (s.logResults r).params = s.params := rfl
@[simp] theorem State.logResults_results (s : State) (r : List Value) : (s.logResults r).results = s.results ++ [r] := rfl
@[simp] theorem State.logResults_program (s : State) (r : List Value) : (s.logResults r).program = s.program := rfl
@[simp] theorem State.logResults_draws (s : State) (r : List Value) : (s.logResults r).draws = s.draws := rfl

@[simp] theorem State.advanceDraws_g (s : State) (n : Nat) : (s.advanceDraws n).g = s.g := rfl
@[simp] theorem State.advanceDraws_pf (s : State) (n : Nat) : (s.advanceDraws n).pf = s.pf := rfl
@[simp] theorem State.advanceDraws_fs (s : State) (n : Nat) : (s.advanceDraws n).fs = s.fs := rfl
@[simp] theorem State.advanceDraws_fd (s : State) (n : Nat) : (s.advanceDraws n).fd = s.fd := rfl
@[simp] theorem State.advanceDraws_fq (s : State) (n : Nat) : (s.advanceDraws n).fq = s.fq := rfl
@[simp] theorem State.advanceDraws_ap (s : State) (n : Nat) : (s.advanceDraws n).ap = s.ap := rfl
@[simp] theorem State.advanceDraws_pv (s : State) (n : Nat) : (s.advanceDraws n).pv = s.pv := rfl
@[simp] theorem State.advanceDraws_vw (s : State) (n : Nat) : (s.advanceDraws n).vw = s.vw := rfl
@[simp] theorem State.advanceDraws_vh (s : State) (n : Nat) : (s.advanceDraws n).vh = s.vh := rfl
@[simp] theorem State.advanceDraws_sp (s : State) (n : Nat) : (s.advanceDraws n).sp = s.sp := rfl
@[simp] theorem State.advanceDraws_fp (s : State) (n : Nat) : (s.advanceDraws n).fp = s.fp := rfl
@[simp] theorem State.advanceDraws_lr (s : State) (n : Nat) : (s.advanceDraws n).lr = s.lr := rfl
@[simp] theorem State.advanceDraws_flags (s : State) (n : Nat) : (s.advanceDraws n).flags = s.flags := rfl
@[simp] theorem State.advanceDraws_priority (s : State) (n : Nat) : (s.advanceDraws n).priority = s.priority := rfl
@[simp] theorem State.advanceDraws_config (s : State) (n : Nat) : (s.advanceDraws n).config = s.config := rfl
@[simp] theorem State.advanceDraws_params (s : State) (n : Nat) : (s.advanceDraws n).params = s.params := rfl
@[simp] theorem State.advanceDraws_results (s : State) (n : Nat) : (s.advanceDraws n).results = s.results := rfl
@[simp] theorem State.advanceDraws_program (s : State) (n : Nat) : (s.advanceDraws n).program = s.program := rfl
@[simp] theorem State.advanceDraws_draws (s : State) (n : Nat) : (s.advanceDraws n).draws = s.draws + n := rfl

@[simp] theorem State.withProgram_g (s : State) (ls : List ProgramLine) : (s.withProgram ls).g = s.g := rfl
@[simp] theorem State.withProgram_pf (s : State) (ls : List ProgramLine) : (s.withProgram ls).pf = s.pf := rfl
@[simp] theorem State.withProgram_fs (s : State) (ls : List ProgramLine) : (s.withProgram ls).fs = s.fs := rfl
@[simp] theorem State.withProgram_fd (s : State) (ls : List ProgramLine) : (s.withProgram ls).fd = s.fd := rfl
@[simp] theorem State.withProgram_fq (s : State) (ls : List ProgramLine) : (s.withProgram ls).fq = s.fq := rfl
@[simp] theorem State.withProgram_ap (s : State) (ls : List ProgramLine) : (s.withProgram ls).ap = s.ap := rfl
@[simp] theorem State.withProgram_pv (s : State) (ls : List ProgramLine) : (s.withProgram ls).pv = s.pv := rfl
@[simp] theorem State.withProgram_vw (s : State) (ls : List ProgramLine) : (s.withProgram ls).vw = s.vw := rfl
@[simp] theorem State.withProgram_vh (s : State) (ls : List ProgramLine) : (s.withProgram ls).vh = s.vh := rfl
@[simp] theorem State.withProgram_sp (s : State) (ls : List ProgramLine) : (s.withProgram ls).sp = s.sp := rfl
@[simp] theorem State.withProgram_fp (s : State) (ls : List ProgramLine) : (s.withProgram ls).fp = s.fp := rfl
@[simp] theorem State.withProgram_lr (s : State) (ls : List ProgramLine) : (s.withProgram ls).lr = s.lr := rfl
@[simp] theorem State.withProgram_flags (s : State) (ls : List ProgramLine) : (s.withProgram ls).flags = s.flags := rfl
@[simp] theorem State.withProgram_priority (s : State) (ls : List ProgramLine) : (s.withProgram ls).priority = s.priority := rfl
@[simp] theorem State.withProgram_config (s : State) (ls : List ProgramLine) : (s.withProgram ls).config = s.config := rfl
@[simp] theorem State.withProgram_params (s : State) (ls : List ProgramLine) : (s.withProgram ls).params = s.params := rfl
@[simp] theorem State.withProgram_results (s : State) (ls : List ProgramLine) : (s.withProgram ls).results = s.results := rfl
@[simp] theorem State.withProgram_program (s : State) (ls : List ProgramLine) : (s.withProgram ls).program = ls := rfl
@[simp] theorem State.withProgram_draws (s : State) (ls : List ProgramLine) : (s.withProgram ls).draws = s.draws := rfl

@[simp] theorem State.setAp_g (s : State) (i : Fin 16) (v : APValue) : (s.setAp i v).g = s.g := rfl
@[simp] theorem State.setAp_pf (s : State) (i : Fin 16) (v : APValue) : (s.setAp i v).pf = s.pf := rfl
@[simp] theorem State.setAp_fs (s : State) (i : Fin 16) (v : APValue) : (s.setAp i v).fs = s.fs := rfl
@[simp] theorem State.setAp_fd (s : State) (i : Fin 16) (v : APValue) : (s.setAp i v).fd = s.fd := rfl
@[simp] theorem State.setAp_fq (s : State) (i : Fin 16) (v : APValue) : (s.setAp i v).fq = s.fq := rfl
@[simp] theorem State.setAp_ap (s : State) (i : Fin 16) (v : APValue) : (s.setAp i v).ap = s.ap.set i ⟨v, true⟩ := rfl
@[simp] theorem State.setAp_pv (s : State) (i : Fin 16) (v : APValue) : (s.setAp i v).pv = s.pv := rfl
@[simp] theorem State.setAp_vw (s : State) (i : Fin 16) (v : APValue) : (s.setAp i v).vw = s.vw := rfl
@[simp] theorem State.setAp_vh (s : State) (i : Fin 16) (v : APValue) : (s.setAp i v).vh = s.vh := rfl
@[simp] theorem State.setAp_sp (s : State) (i : Fin 16) (v : APValue) : (s.setAp i v).sp = s.sp := rfl
@[simp] theorem State.setAp_fp (s : State) (i : Fin 16) (v : APValue) : (s.setAp i v).fp = s.fp := rfl
@[simp] theorem State.setAp_lr (s : State) (i : Fin 16) (v : APValue) : (s.setAp i v).lr = s.lr := rfl
@[simp] theorem State.setAp_flags (s : State) (i : Fin 16) (v : APValue) : (s.setAp i v).flags = s.flags := rfl
@[simp] theorem State.setAp_priority (s : State) (i : Fin 16) (v : APValue) : (s.setAp i v).priority = s.priority := rfl
@[simp] theorem State.setAp_config (s : State) (i : Fin 16) (v : APValue) : (s.setAp i v).config = s.config := rfl
@[simp] theorem State.setAp_params (s : State) (i : Fin 16) (v : APValue) : (s.setAp i v).params = s.params := rfl
@[simp] theorem State.setAp_results (s : State) (i : Fin 16) (v : APValue) : (s.setAp i v).results = s.results := rfl
@[simp] theorem State.setAp_program (s : State) (i : Fin 16) (v : APValue) : (s.setAp i v).program = s.program := rfl
@[simp] theorem State.setAp_draws (s : State) (i : Fin 16) (v : APValue) : (s.setAp i v).draws = s.draws := rfl

@[simp] theorem State.setCell_ap (s : State) (l : Loc) (c : Cell 512) : (s.setCell l c).ap = s.ap := by
  cases l <;> rfl
@[simp] theorem State.setCell_params (s : State) (l : Loc) (c : Cell 512) : (s.setCell l c).params = s.params := by
  cases l <;> rfl
@[simp] theorem State.setCell_results (s : State) (l : Loc) (c : Cell 512) : (s.setCell l c).results = s.results := by
  cases l <;> rfl
@[simp] theorem State.setCell_program (s : State) (l : Loc) (c : Cell 512) : (s.setCell l c).program = s.program := by
  cases l <;> rfl
@[simp] theorem State.setCell_draws (s : State) (l : Loc) (c : Cell 512) : (s.setCell l c).draws = s.draws := by
  cases l <;> rfl

/-! ### A cell is read the same whatever happens to the other parts of State -/

@[simp] theorem State.cellAt_logResults (s : State) (r : List Value) (l : Loc) : (s.logResults r).cellAt l = s.cellAt l := by
  cases l <;> rfl
@[simp] theorem State.cellAt_advanceDraws (s : State) (n : Nat) (l : Loc) : (s.advanceDraws n).cellAt l = s.cellAt l := by
  cases l <;> rfl
@[simp] theorem State.cellAt_withProgram (s : State) (ls : List ProgramLine) (l : Loc) : (s.withProgram ls).cellAt l = s.cellAt l := by
  cases l <;> rfl
@[simp] theorem State.cellAt_setAp (s : State) (i : Fin 16) (v : APValue) (l : Loc) : (s.setAp i v).cellAt l = s.cellAt l := by
  cases l <;> rfl

@[simp] theorem State.view_logResults (s : State) (r : List Value) (d : Designator) : (s.logResults r).view d = s.view d := rfl
@[simp] theorem State.specified_logResults (s : State) (r : List Value) (d : Designator) : (s.logResults r).specified d = s.specified d := rfl
@[simp] theorem State.regRead_logResults (s : State) (r : List Value) (d : Designator) (k : Nat) :
    (s.logResults r).regRead d k = s.regRead d k := rfl
@[simp] theorem State.view_advanceDraws (s : State) (n : Nat) (d : Designator) : (s.advanceDraws n).view d = s.view d := rfl
@[simp] theorem State.specified_advanceDraws (s : State) (n : Nat) (d : Designator) : (s.advanceDraws n).specified d = s.specified d := rfl
@[simp] theorem State.regRead_advanceDraws (s : State) (n : Nat) (d : Designator) (k : Nat) :
    (s.advanceDraws n).regRead d k = s.regRead d k := rfl
@[simp] theorem State.view_withProgram (s : State) (ls : List ProgramLine) (d : Designator) : (s.withProgram ls).view d = s.view d := rfl
@[simp] theorem State.specified_withProgram (s : State) (ls : List ProgramLine) (d : Designator) : (s.withProgram ls).specified d = s.specified d := rfl
@[simp] theorem State.regRead_withProgram (s : State) (ls : List ProgramLine) (d : Designator) (k : Nat) :
    (s.withProgram ls).regRead d k = s.regRead d k := rfl

end Sys2Proof.Machine
end

