-- ==== Sys2Proof/Laws/Cells.lean ====
section
/-! SUPPORT. What the operations on cells do: masks, reading through a mask, storing a view, and the
two laws of a store: the cell written holds it, every other cell stays. -/

namespace Sys2Proof.Machine

theorem lowMask_getLsbD (w i : Nat) : (lowMask w).getLsbD i = decide (i < 512 ∧ i < w) := by
  simp [lowMask]

@[simp] theorem Cell.store_val {w : Nat} (v : BitVec w) : (Cell.store v).val = v.setWidth 512 := rfl
@[simp] theorem Cell.store_known {w : Nat} (v : BitVec w) : (Cell.store v).known = lowMask w := rfl
@[simp] theorem Cell.narrow_val (c : Cell 512) (n : Nat) : (c.narrow n).val = c.val.setWidth n := rfl
@[simp] theorem Cell.narrow_known (c : Cell 512) (n : Nat) : (c.narrow n).known = c.known.setWidth n := rfl
@[simp] theorem Cell.widen_val {w : Nat} (c : Cell w) : c.widen.val = c.val.setWidth 512 := rfl
@[simp] theorem Cell.widen_known {w : Nat} (c : Cell w) : c.widen.known = c.known.setWidth 512 := rfl

theorem Cell.specifiedBelow_iff (c : Cell 512) (w : Nat) :
    c.specifiedBelow w = true ↔ ∀ i, i < 512 → i < w → c.known.getLsbD i = true := by
  simp only [Cell.specifiedBelow, decide_eq_true_eq]
  constructor
  · intro h i h512 hw
    have := congrArg (fun b => b.getLsbD i) h
    simpa [lowMask_getLsbD, h512, hw] using this
  · intro h
    apply BitVec.eq_of_getLsbD_eq
    intro i h512
    by_cases hw : i < w
    · simp [lowMask_getLsbD, h512, hw, h i h512 hw]
    · simp [lowMask_getLsbD, hw]

theorem Cell.resolve_getLsbD (c : Cell 512) (free : Wide) (i : Nat) :
    (c.resolve free).getLsbD i = if c.known.getLsbD i then c.val.getLsbD i else free.getLsbD i := by
  by_cases h : i < 512
  · simp only [Cell.resolve, BitVec.getLsbD_or, BitVec.getLsbD_and, BitVec.getLsbD_not, h, decide_true, Bool.true_and]
    cases c.known.getLsbD i <;> simp
  · have h' : 512 ≤ i := by omega
    simp [BitVec.getLsbD_of_ge _ _ h']

/-- A cell without a value is read as the draw. -/
@[simp] theorem Cell.resolve_unspecified (free : Wide) : (Cell.unspecified 512).resolve free = free := by
  apply BitVec.eq_of_getLsbD_eq
  intro i _
  simp [Cell.resolve_getLsbD, Cell.unspecified]

/-- A view every bit of which has a value is read as the cell's bits, whatever is drawn. -/
theorem Cell.resolve_of_specified (c : Cell 512) (free : Wide) {w : Nat} (h : c.specifiedBelow w = true) :
    (c.resolve free).setWidth w = c.val.setWidth w := by
  rw [Cell.specifiedBelow_iff] at h
  apply BitVec.eq_of_getLsbD_eq
  intro i hi
  simp only [BitVec.getLsbD_setWidth, Cell.resolve_getLsbD]
  by_cases h512 : i < 512
  · simp [h i h512 hi]
  · simp [BitVec.getLsbD_of_ge _ _ (Nat.le_of_not_lt h512)]

theorem Cell.read_of_specified (c : Cell 512) {w : Nat} (free : Wide) (h : c.specifiedBelow w = true) :
    c.read w free = c.val.setWidth w := by
  simp [Cell.read, h]

/-- A read is the cell's bits with the draw in place of the unspecified ones, wherever those are. -/
theorem Cell.read_eq_resolve (c : Cell 512) (w : Nat) (free : Wide) :
    c.read w free = (c.resolve free).setWidth w := by
  unfold Cell.read
  split
  · next h => rw [Cell.resolve_of_specified c free h]
  · rfl

theorem Cell.store_specifiedBelow {w w' : Nat} (b : BitVec w) (h : w' ≤ w) :
    (Cell.store b).specifiedBelow w' = true := by
  rw [Cell.specifiedBelow_iff]
  intro i h512 hw
  simp only [Cell.store_known, lowMask_getLsbD, decide_eq_true_eq]
  omega

theorem Cell.ext_iff' {w : Nat} (c e : Cell w) : c = e ↔ c.val = e.val ∧ c.known = e.known := by
  cases c; cases e; simp

/-- What is left of a store in a cell of n bits: the low-order bits. -/
theorem Cell.store_narrow {w : Nat} (b : BitVec w) (n : Nat) (hn : n ≤ 512) :
    (Cell.store b).narrow n = ⟨b.setWidth n, (BitVec.allOnes w).setWidth n⟩ := by
  simp only [Cell.ext_iff', Cell.narrow_val, Cell.narrow_known, Cell.store_val, Cell.store_known, lowMask]
  constructor <;> exact BitVec.setWidth_setWidth_of_le _ hn

@[simp] theorem Cell.narrow_zero_widen (c : Cell 512) : (c.narrow 0).widen = Cell.unspecified 512 := by
  simp [Cell.ext_iff', Cell.unspecified, BitVec.of_length_zero]

theorem Cell.widen_specifiedBelow {n : Nat} (c : Cell n) {w : Nat} (hw : w ≤ n) (h512 : n ≤ 512) :
    c.widen.specifiedBelow w = true ↔ ∀ i, i < w → c.known.getLsbD i = true := by
  rw [Cell.specifiedBelow_iff]
  constructor
  · intro h i hi
    simpa [show i < 512 by omega] using h i (by omega) hi
  · intro h i hi hiw
    simp [hi, h i hiw]

/-- What a store leaves of a value in a cell of n bits, as a read of the cell sees it. -/
def Cell.stored {w : Nat} (b : BitVec w) (n : Nat) : Cell 512 := ((Cell.store b).narrow n).widen

theorem Cell.stored_known_getLsbD {w : Nat} (b : BitVec w) (n i : Nat) :
    (Cell.stored b n).known.getLsbD i = decide (i < 512 ∧ i < n ∧ i < w) := by
  simp only [Cell.stored, Cell.widen_known, Cell.narrow_known, Cell.store_known, BitVec.getLsbD_setWidth,
    lowMask_getLsbD, ← Bool.decide_and]
  exact decide_eq_decide.2 (by omega)

theorem Cell.stored_val_getLsbD {w : Nat} (b : BitVec w) (n i : Nat) :
    (Cell.stored b n).val.getLsbD i = (decide (i < 512 ∧ i < n) && b.getLsbD i) := by
  simp only [Cell.stored, Cell.widen_val, Cell.narrow_val, Cell.store_val, BitVec.getLsbD_setWidth]
  by_cases h : i < 512 <;> by_cases h' : i < n <;> simp [h, h']

/-- A view no wider than the value stored has every bit. -/
theorem Cell.stored_specifiedBelow {w : Nat} (b : BitVec w) {n w' : Nat} (hw : w' ≤ w) (hn : w' ≤ n) :
    (Cell.stored b n).specifiedBelow w' = true := by
  rw [Cell.specifiedBelow_iff]
  intro i h512 hi
  rw [Cell.stored_known_getLsbD]
  exact decide_eq_true (by omega)

/-- A view wider than the value stored, in a cell that has the bits, lacks one. -/
theorem Cell.stored_unspecified {w : Nat} (b : BitVec w) {n w' : Nat} (hw : w < w') (hn : w' ≤ n) (h512 : n ≤ 512) :
    (Cell.stored b n).specifiedBelow w' = false := by
  rw [← Bool.not_eq_true, Cell.specifiedBelow_iff]
  intro h
  have := h w (by omega) hw
  rw [Cell.stored_known_getLsbD] at this
  exact absurd (of_decide_eq_true this) (by omega)

/-- A view no wider than the cell reads the low-order bits of the value stored. -/
theorem Cell.stored_val {w : Nat} (b : BitVec w) {n w' : Nat} (hn : w' ≤ n) (h512 : n ≤ 512) :
    (Cell.stored b n).val.setWidth w' = b.setWidth w' := by
  apply BitVec.eq_of_getLsbD_eq
  intro i hi
  rw [BitVec.getLsbD_setWidth, BitVec.getLsbD_setWidth, Cell.stored_val_getLsbD]
  simp [hi, show i < 512 by omega, show i < n by omega]

/-- A cell that was written holds the low-order bits of what was written to it. -/
theorem State.cellAt_setCell_same (s : State) (l : Loc) (c : Cell 512) :
    (s.setCell l c).cellAt l = (c.narrow l.width).widen := by
  cases l <;> simp [State.cellAt, State.setCell, Loc.width]

/-- A write leaves every other cell as it was. -/
theorem State.cellAt_setCell_ne (s : State) {l l' : Loc} (h : l ≠ l') (c : Cell 512) :
    (s.setCell l c).cellAt l' = s.cellAt l' := by
  cases l <;> cases l' <;> first
    | rfl
    | (simp only [State.cellAt, State.setCell, Fin.getElem_fin, Vector.getElem_set]
       split <;> simp_all [Fin.ext_iff])
    | exact absurd rfl h

theorem State.setCell_comm (s : State) {l l' : Loc} (h : l ≠ l') (c c' : Cell 512) :
    (s.setCell l c).setCell l' c' = (s.setCell l' c').setCell l c := by
  cases l <;> cases l' <;> first
    | rfl
    | (simp only [State.setCell, ne_eq, Loc.g.injEq, Loc.pf.injEq, Loc.fs.injEq, Loc.fd.injEq, Loc.fq.injEq,
        Loc.pv.injEq, Loc.vw.injEq, Loc.vh.injEq, Fin.ext_iff] at *
       simp [Vector.set_comm _ _ h])
    | exact absurd rfl h

end Sys2Proof.Machine
end

