-- ==== Sys2Proof/Laws/Ops.lean ====
section
/-! SUPPORT. What the shared operations can do: a write touches one cell, a pattern answers in one of
its stages, and the places of the registers. -/

namespace Sys2Proof.Machine

/-! ### A write touches the cells and nothing else -/

@[simp] theorem State.putAt_params (s : State) (l : Loc) (v : Value) : (s.putAt l v).params = s.params := by
  unfold State.putAt; repeat' split
  all_goals simp
@[simp] theorem State.putAt_results (s : State) (l : Loc) (v : Value) : (s.putAt l v).results = s.results := by
  unfold State.putAt; repeat' split
  all_goals simp
@[simp] theorem State.putAt_program (s : State) (l : Loc) (v : Value) : (s.putAt l v).program = s.program := by
  unfold State.putAt; repeat' split
  all_goals simp
@[simp] theorem State.putAt_draws (s : State) (l : Loc) (v : Value) : (s.putAt l v).draws = s.draws := by
  unfold State.putAt; repeat' split
  all_goals simp

@[simp] theorem State.regWrite_params (s : State) (d : Designator) (v : Value) :
    (s.regWrite d v).params = s.params := by
  unfold State.regWrite; split <;> simp
@[simp] theorem State.regWrite_results (s : State) (d : Designator) (v : Value) :
    (s.regWrite d v).results = s.results := by
  unfold State.regWrite; split <;> simp
@[simp] theorem State.regWrite_program (s : State) (d : Designator) (v : Value) :
    (s.regWrite d v).program = s.program := by
  unfold State.regWrite; split <;> simp
@[simp] theorem State.regWrite_draws (s : State) (d : Designator) (v : Value) :
    (s.regWrite d v).draws = s.draws := by
  unfold State.regWrite; split <;> simp

@[simp] theorem State.writeAll_params (s : State) (ws : List (Designator × Value)) :
    (s.writeAll ws).params = s.params := by
  induction ws generalizing s with
  | nil => rfl
  | cons w ws ih => simp [State.writeAll, ih]
@[simp] theorem State.writeAll_results (s : State) (ws : List (Designator × Value)) :
    (s.writeAll ws).results = s.results := by
  induction ws generalizing s with
  | nil => rfl
  | cons w ws ih => simp [State.writeAll, ih]
@[simp] theorem State.writeAll_program (s : State) (ws : List (Designator × Value)) :
    (s.writeAll ws).program = s.program := by
  induction ws generalizing s with
  | nil => rfl
  | cons w ws ih => simp [State.writeAll, ih]
@[simp] theorem State.writeAll_draws (s : State) (ws : List (Designator × Value)) :
    (s.writeAll ws).draws = s.draws := by
  induction ws generalizing s with
  | nil => rfl
  | cons w ws ih => simp [State.writeAll, ih]

/-! ### A store reaches its own cell only -/

theorem State.setAp_getElem (s : State) (i j : Fin 16) (v : APValue) :
    (s.setAp i v).ap[j] = if i = j then ⟨v, true⟩ else s.ap[j] := by
  simp [State.setAp, Vector.getElem_set, Fin.ext_iff]

theorem State.cellAt_putAt_ne (s : State) {l l' : Loc} (h : l ≠ l') (v : Value) :
    (s.putAt l v).cellAt l' = s.cellAt l' := by
  unfold State.putAt
  split
  · exact s.cellAt_setCell_ne h _
  · split <;> simp

theorem Loc.eq_ap_of_apIndex {l : Loc} {i : Fin 16} (h : l.apIndex = some i) : l = .ap i := by
  cases l <;> simp_all [Loc.apIndex]

theorem State.ap_putAt_ne (s : State) {l : Loc} {i : Fin 16} (h : l ≠ .ap i) (v : Value) :
    (s.putAt l v).ap[i] = s.ap[i] := by
  unfold State.putAt
  split
  · simp
  · split
    · next j hj =>
      have := Loc.eq_ap_of_apIndex hj
      subst this
      have hne : j ≠ i := fun e => h (by rw [e])
      rw [State.setAp_getElem]; simp [hne]
    · rfl

/-- A store through a view of bits leaves the view's bits in the cell. -/
theorem State.cellAt_putAt_same (s : State) (l : Loc) {w : Nat} (b : BitVec w) :
    (s.putAt l (.bits w b)).cellAt l = Cell.stored b l.width :=
  s.cellAt_setCell_same l _

theorem State.putAt_comm (s : State) {l l' : Loc} (h : l ≠ l') (v v' : Value) :
    (s.putAt l v).putAt l' v' = (s.putAt l' v').putAt l v := by
  unfold State.putAt
  cases v <;> cases v' <;> simp only
  · exact s.setCell_comm h _ _
  · split
    · cases l <;> rfl
    · rfl
  · split
    · cases l' <;> rfl
    · rfl
  · cases hi : l.apIndex with
    | none => rfl
    | some i => cases hj : l'.apIndex with
      | none => rfl
      | some j =>
        have hi' := Loc.eq_ap_of_apIndex hi
        have hj' := Loc.eq_ap_of_apIndex hj
        subst hi'; subst hj'
        have hne : i.val ≠ j.val := fun e => h (by simp [Fin.ext_iff, e])
        simp [State.setAp, Vector.set_comm _ _ hne]

/-- A register whose cell is not written reads as before. -/
theorem State.regRead_putAt_ne (s : State) (d : Designator) (l : Loc) (v : Value) (k : Nat)
    (h : d.loc s.params ≠ some l) : (s.putAt l v).regRead d k = s.regRead d k := by
  unfold State.regRead State.view
  simp only [State.putAt_params]
  cases hd : d.loc s.params with
  | none => rfl
  | some m =>
    have hne : l ≠ m := fun e => h (by rw [hd, e])
    have hv : (s.putAt l v).viewAt m = s.viewAt m := by
      cases m <;> simp only [State.viewAt, State.cellAt_putAt_ne s hne]
      · have := State.cellAt_putAt_ne s hne v
        simp only [State.cellAt, Cell.ext_iff', Cell.widen_val, Cell.widen_known] at this
        have e1 : (s.putAt l v).config.val = s.config.val := by
          have := congrArg (fun b => b.setWidth 8) this.1
          simpa using this
        have e2 : (s.putAt l v).config.known = s.config.known := by
          have := congrArg (fun b => b.setWidth 8) this.2
          simpa using this
        simp [State.configView, e1, e2]
      · simp [State.sprView]
    cases hi : m.apIndex with
    | none => simp only [Option.bind_some, hi, hv]
    | some i =>
      have hm := Loc.eq_ap_of_apIndex hi
      subst hm
      simp only [Option.bind_some, Loc.apIndex, State.apRead, State.ap_putAt_ne s hne]

/-- A register whose cell is not written stays specified, or not, as it was. -/
theorem State.specified_putAt_ne (s : State) (d : Designator) (l : Loc) (v : Value)
    (h : d.loc s.params ≠ some l) : (s.putAt l v).specified d = s.specified d := by
  unfold State.specified
  simp only [State.putAt_params]
  cases hd : d.loc s.params with
  | none => rfl
  | some m =>
    have hne : l ≠ m := fun e => h (by rw [hd, e])
    simp only [State.specifiedAt, State.cellAt_putAt_ne s hne]
    cases hi : m.apIndex with
    | none => rfl
    | some i =>
      have hm := Loc.eq_ap_of_apIndex hi
      subst hm
      simp only [State.ap_putAt_ne s hne]

/-! ### A WRITE touches the cells it names and no other -/

theorem State.cellAt_writeAll_ne (s : State) (ws : List (Designator × Value)) (l : Loc)
    (h : ∀ w ∈ ws, w.1.loc s.params ≠ some l) : (s.writeAll ws).cellAt l = s.cellAt l := by
  induction ws generalizing s with
  | nil => rfl
  | cons w ws ih =>
    obtain ⟨d, v⟩ := w
    rw [State.writeAll, ih (s.regWrite d v) (by simpa using fun a b hab => h (a, b) (List.mem_cons_of_mem _ hab))]
    have h0 := h (d, v) List.mem_cons_self
    unfold State.regWrite
    split
    · rfl
    · next m hm => exact s.cellAt_putAt_ne (fun e => h0 (by rw [hm, e])) v

theorem State.ap_writeAll_ne (s : State) (ws : List (Designator × Value)) (i : Fin 16)
    (h : ∀ w ∈ ws, w.1.loc s.params ≠ some (.ap i)) : (s.writeAll ws).ap[i] = s.ap[i] := by
  induction ws generalizing s with
  | nil => rfl
  | cons w ws ih =>
    obtain ⟨d, v⟩ := w
    rw [State.writeAll, ih (s.regWrite d v) (by simpa using fun a b hab => h (a, b) (List.mem_cons_of_mem _ hab))]
    have h0 := h (d, v) List.mem_cons_self
    unfold State.regWrite
    split
    · rfl
    · next m hm => exact s.ap_putAt_ne (fun e => h0 (by rw [hm, e])) v

/-! ### The stages of the two patterns -/

/-- A READ answers a next state exactly where its designators are valid and, on a machine that
faults on one, no bit of a view is unspecified (R120). -/
theorem readPattern_next_iff (ds : List Designator) (s t : State) :
    readPattern ds s = .next t ↔
      ds.all Designator.valid = true ∧ (s.params.unspecifiedRead = .fault → ds.all s.specified = true) ∧
        t = (s.logResults (s.readAll ds s.draws)).advanceDraws ds.length := by
  unfold readPattern
  split
  · simp_all
  · split
    · simp_all
    · constructor
      · intro h
        injection h with h
        exact ⟨by simp_all, by simp_all, h.symm⟩
      · rintro ⟨_, _, rfl⟩; rfl

/-- A WRITE answers a next state exactly where its four checks pass (R130). -/
theorem writePattern_next_iff (ws : List (Designator × Value)) (s t : State) :
    writePattern ws s = .next t ↔
      (ws.all fun w => w.1.valid) = true ∧ (ws.all fun w => decide (w.2.width = w.1.width)) = true ∧
        anyOverlap s.params (ws.map Prod.fst) = false ∧ ws.findSome? (writeRefusal s.params) = none ∧
        t = (s.writeAll ws).logResults [] := by
  unfold writePattern
  cases h1 : ws.all fun w => w.1.valid with
  | false => simp
  | true =>
    cases h2 : ws.all fun w => decide (w.2.width = w.1.width) with
    | false => simp
    | true =>
      cases h3 : anyOverlap s.params (ws.map Prod.fst) with
      | true => simp
      | false =>
        cases h4 : ws.findSome? (writeRefusal s.params) with
        | some r => simp
        | none => simp [eq_comm]

theorem readPattern_params {ds : List Designator} {s t : State} (h : readPattern ds s = .next t) :
    t.params = s.params := by
  obtain ⟨_, _, rfl⟩ := (readPattern_next_iff _ _ _).1 h; simp

theorem writePattern_params {ws : List (Designator × Value)} {s t : State} (h : writePattern ws s = .next t) :
    t.params = s.params := by
  obtain ⟨_, _, _, _, rfl⟩ := (writePattern_next_iff _ _ _).1 h; simp

/-- Every operation is a read pattern of its designators or a write pattern of its pairs. -/
theorem exec_eq_pattern (i : Instr) (s : State) :
    (i.writes = [] ∧ exec i s = readPattern i.designators s) ∨
      (i.writes ≠ [] ∧ i.writes.map Prod.fst = i.designators ∧ exec i s = writePattern i.writes s) := by
  cases i <;> first
    | exact .inl ⟨rfl, rfl⟩
    | exact .inr ⟨by simp [Instr.writes], rfl, rfl⟩

/-! ### The places of the registers -/

theorem fprLoc_apIndex (p : Params) (c : Code) :
    (fprLoc p c).apIndex = if 48 ≤ c.toNat then some ⟨c.toNat % 16, Nat.mod_lt _ (by decide)⟩ else none := by
  have hc := c.isLt
  unfold fprLoc
  split
  · simp [Loc.apIndex, show 48 ≤ c.toNat by omega]
  · simp only [show ¬ 48 ≤ c.toNat by omega, if_false]
    unfold fprRowLoc
    repeat' split
    all_goals rfl

theorem Designator.width_of_apIndex {p : Params} {d : Designator} {l : Loc} (hl : d.loc p = some l) :
    (l.apIndex.isSome = true ↔ d.width = .ap) := by
  obtain ⟨file, c⟩ := d
  cases file
  · simp only [Designator.loc, gprLoc] at hl
    split at hl
    · simp at hl
    · obtain rfl := Option.some.inj hl; simp [Loc.apIndex, Designator.width]
  · simp only [Designator.loc, Option.some.injEq] at hl
    subst hl
    have hc := c.isLt
    simp only [fprLoc_apIndex, Designator.width, fprWidth]
    repeat' split
    all_goals simp
    all_goals omega
  · simp only [Designator.loc, vrLoc] at hl
    repeat' split at hl
    all_goals first
      | (obtain rfl := Option.some.inj hl; simp [Loc.apIndex, Designator.width])
      | simp at hl
  · simp only [Designator.loc, Option.some.injEq] at hl
    subst hl
    simp only [sprLoc, Designator.width]
    repeat' split
    all_goals simp [Loc.apIndex]

/-- A view of an FPR or VR fits its cell. -/
theorem Designator.width_le_of_fpr {p : Params} {c : Code} (h : c.toNat < 48) :
    (fprWidth c).size ≤ (fprLoc p c).width := by
  have hc := c.isLt
  have hg : c.toNat / 16 = 0 ∨ c.toNat / 16 = 1 ∨ c.toNat / 16 = 2 := by omega
  unfold fprLoc fprWidth fprRowLoc
  rcases hg with hg | hg | hg <;> simp only [hg] <;> repeat' split
  all_goals simp_all [Loc.width, ViewWidth.size]
  all_goals omega

theorem Designator.width_le_of_vr {rows : VecAliasRows} {c : Code} {l : Loc} (h : vrLoc rows c = some l) : vrWidth c ≤ l.width := by
  unfold vrLoc at h
  unfold vrWidth
  repeat' split at h
  all_goals first
    | (obtain rfl := Option.some.inj h; simp only [Loc.width]; repeat' split
       all_goals omega)
    | simp at h

end Sys2Proof.Machine
end

