-- ==== Sys2Proof/Laws/Registers.lean ====
section
/-! SUPPORT. Where each register stands: validity, width and cell of the register names, and one READ1 or
WRITE1 of a register from them. -/

namespace Sys2Proof.Machine

/-! ### One read and one write -/

theorem exec_read1_of_valid {s : State} {d : Designator} (hv : d.valid = true)
    (hs : s.params.unspecifiedRead = .draw ∨ s.specified d = true) :
    exec (.read1 d) s = .next ((s.logResults [s.regRead d s.draws]).advanceDraws 1) := by
  refine (readPattern_next_iff [d] s _).2 ⟨by simpa using hv, ?_, rfl⟩
  intro hf
  rcases hs with h | h
  · simp [h] at hf
  · simpa using h

/-- A view of w bits all of which have a value is read as those bits. -/
theorem State.regRead_of_specified {s : State} {d : Designator} {l : Loc} {w : Nat} (k : Nat)
    (hl : d.loc s.params = some l) (hw : d.width = .bits w)
    (hs : (s.viewAt l).specifiedBelow w = true) :
    s.regRead d k = .bits w ((s.viewAt l).val.setWidth w) := by
  have ha : l.apIndex = none := by
    cases h : l.apIndex with
    | none => rfl
    | some i => have := (Designator.width_of_apIndex hl).1 (by simp [h]); simp [hw] at this
  have hz : d.width.size = w := by rw [hw]; rfl
  subst hz
  simp only [State.regRead, State.view, hl, Option.bind_some, ha, Cell.read_of_specified _ _ hs]

/-- A view of w bits is read as its bits with the draw in place of those without a value. -/
theorem State.regRead_eq_resolve {s : State} {d : Designator} {l : Loc} {w : Nat} (k : Nat)
    (hl : d.loc s.params = some l) (hw : d.width = .bits w) :
    s.regRead d k = .bits w (((s.viewAt l).resolve (Config.freeBits k)).setWidth w) := by
  have ha : l.apIndex = none := by
    cases h : l.apIndex with
    | none => rfl
    | some i => have := (Designator.width_of_apIndex hl).1 (by simp [h]); simp [hw] at this
  have hz : d.width.size = w := by rw [hw]; rfl
  subst hz
  simp only [State.regRead, State.view, hl, Option.bind_some, ha, Cell.read_eq_resolve]

theorem exec_write1_of_checks {s : State} {d : Designator} {v : Value} (hv : d.valid = true)
    (hw : v.width = d.width) (hr : writeRefusal s.params (d, v) = none) :
    exec (.write1 d v) s = .next ((s.regWrite d v).logResults []) := by
  refine (writePattern_next_iff [(d, v)] s _).2 ⟨by simpa using hv, by simpa using hw, rfl, by simpa using hr, rfl⟩

theorem exec_write1_next {s t : State} {d : Designator} {v : Value} (h : exec (.write1 d v) s = .next t) :
    d.valid = true ∧ v.width = d.width ∧ writeRefusal s.params (d, v) = none ∧
      t = (s.regWrite d v).logResults [] := by
  obtain ⟨h1, h2, _, h4, h5⟩ := (writePattern_next_iff [(d, v)] s t).1 h
  exact ⟨by simpa using h1, by simpa using h2, by simpa using h4, h5⟩

theorem State.regWrite_of_loc {s : State} {d : Designator} {l : Loc} (hl : d.loc s.params = some l) (v : Value) :
    s.regWrite d v = s.putAt l v := by
  simp [State.regWrite, hl]

/-- Only an SPR has a stage 4 (R130). -/
theorem writeRefusal_of_file {p : Params} {d : Designator} {v : Value} (h : d.file ≠ .spr) :
    writeRefusal p (d, v) = none := by
  obtain ⟨f, c⟩ := d
  cases f <;> simp_all [writeRefusal]

/-! ### The places of the registers by name -/

theorem loc_gpr (p : Params) (c : Code) (i : Fin 63) (h : c.toNat = i.val + 1) :
    Designator.loc p ⟨.gpr, c⟩ = some (.g i) := by
  simp only [Designator.loc, gprLoc, h]
  simp

theorem loc_f (p : Params) (i : Fin 8) (h : i.val < 64) :
    (RegName.f ⟨i.val, h⟩).designator.loc p = some (.pf i) := by
  fin_cases i <;> simp [RegName.designator, Designator.loc, fprLoc, fprRowLoc]
theorem loc_d (p : Params) (i : Fin 8) (h : i.val < 16) :
    (RegName.d ⟨i.val, h⟩).designator.loc p = some (.pf i) := by
  fin_cases i <;> simp [RegName.designator, Designator.loc, fprLoc, fprRowLoc]
theorem loc_q (p : Params) (i : Fin 8) (h : i.val < 16) :
    (RegName.q ⟨i.val, h⟩).designator.loc p = some (.pf i) := by
  fin_cases i <;> simp [RegName.designator, Designator.loc, fprLoc, fprRowLoc]

theorem loc_f_upper (p : Params) (i : Fin 8) (h : 8 + i.val < 64) :
    (RegName.f ⟨8 + i.val, h⟩).designator.loc p =
      some (match p.fpAliasRows with | .rows8 => .fs i | .rows16 => .fq i) := by
  cases hp : p.fpAliasRows <;> fin_cases i <;>
    simp [RegName.designator, Designator.loc, fprLoc, fprRowLoc, hp]
theorem loc_d_upper (p : Params) (i : Fin 8) (h : 8 + i.val < 16) :
    (RegName.d ⟨8 + i.val, h⟩).designator.loc p =
      some (match p.fpAliasRows with | .rows8 => .fd i | .rows16 => .fq i) := by
  cases hp : p.fpAliasRows <;> fin_cases i <;>
    simp [RegName.designator, Designator.loc, fprLoc, fprRowLoc, hp]
theorem loc_q_upper (p : Params) (i : Fin 8) (h : 8 + i.val < 16) :
    (RegName.q ⟨8 + i.val, h⟩).designator.loc p = some (.fq i) := by
  cases hp : p.fpAliasRows <;> fin_cases i <;>
    simp [RegName.designator, Designator.loc, fprLoc, fprRowLoc, hp]

theorem loc_ap (p : Params) (i : Fin 16) : (RegName.ap i).designator.loc p = some (.ap i) := by
  fin_cases i <;> rfl

theorem loc_v (p : Params) (j : Fin 4) :
    (RegName.v ⟨j.val, by omega⟩).designator.loc p = some (.pv j) ∧
    (RegName.v ⟨16 + j.val, by omega⟩).designator.loc p = some (.pv j) ∧
    (RegName.v ⟨24 + j.val, by omega⟩).designator.loc p = some (.pv j) ∧
    (RegName.v ⟨28 + j.val, by omega⟩).designator.loc p = some (.pv j) ∧
    (RegName.v ⟨20 + j.val, by omega⟩).designator.loc p = some (.vh j) := by
  fin_cases j <;> exact ⟨rfl, rfl, rfl, rfl, rfl⟩
theorem loc_vw (p : Params) (j : Fin 12) :
    (RegName.v ⟨4 + j.val, by omega⟩).designator.loc p = some (.vw j) := by fin_cases j <;> rfl

theorem valid_f (i : Fin 64) : (RegName.f i).designator.valid = true := rfl
theorem valid_d (i : Fin 16) : (RegName.d i).designator.valid = true := rfl
theorem valid_q (i : Fin 16) : (RegName.q i).designator.valid = true := rfl
theorem valid_ap (i : Fin 16) : (RegName.ap i).designator.valid = true := rfl
theorem valid_v (i : Fin 32) : (RegName.v i).designator.valid = true := by fin_cases i <;> rfl

theorem width_f (i : Fin 16) : (RegName.f ⟨i.val, by omega⟩).designator.width = .bits 32 := by
  fin_cases i <;> rfl
theorem width_d (i : Fin 16) : (RegName.d i).designator.width = .bits 64 := by fin_cases i <;> rfl
theorem width_q (i : Fin 16) : (RegName.q i).designator.width = .bits 128 := by fin_cases i <;> rfl
theorem width_ap (i : Fin 16) : (RegName.ap i).designator.width = .ap := by fin_cases i <;> rfl
theorem width_v512 (j : Fin 16) : (RegName.v ⟨j.val, by omega⟩).designator.width = .bits 512 := by
  fin_cases j <;> rfl
theorem width_v256 (j : Fin 8) : (RegName.v ⟨16 + j.val, by omega⟩).designator.width = .bits 256 := by
  fin_cases j <;> rfl
theorem width_v128 (j : Fin 4) : (RegName.v ⟨24 + j.val, by omega⟩).designator.width = .bits 128 := by
  fin_cases j <;> rfl
theorem width_v64 (j : Fin 4) : (RegName.v ⟨28 + j.val, by omega⟩).designator.width = .bits 64 := by
  fin_cases j <;> rfl

end Sys2Proof.Machine
end

