-- ==== Sys2Proof/Laws/Accesses.lean ====
section
/-! SUPPORT. One access: what a READ1 or a WRITE1 of a register answers from the cell behind it, when two
registers overlap, what reads back what was written, and what a step that answers a next state did. -/

namespace Sys2Proof.Machine

/-! ### One step -/

theorem resolveAll_literal (rs : List (List Value)) (vs : List Value) :
    resolveAll rs (vs.map .literal) = some vs := by
  induction vs with
  | nil => rfl
  | cons v vs ih => simp [resolveAll, ih, ValueExpr.resolve]

theorem State.readAll_length (s : State) (ds : List Designator) (k : Nat) :
    (s.readAll ds k).length = ds.length := by
  induction ds generalizing k with
  | nil => rfl
  | cons d ds ih => simp [State.readAll, ih]

/-- All a step to a next state can be: the end of the run, or the next line's operation. -/
theorem step_next_cases {s t : State} (h : step s = .next t) :
    (s.program = [] ∧ t = s) ∨ ∃ l rest d i, s.program = l :: rest ∧ l.resolve s.results = some d ∧
      decode d = .ok i ∧ exec i (s.withProgram rest) = .next t := by
  unfold step State.fetch at h
  cases hp : s.program with
  | nil => simp [hp] at h; exact .inl ⟨rfl, h.symm⟩
  | cons l rest =>
    simp only [hp, fetchLine] at h
    cases hr : l.resolve s.results with
    | none => simp [hr] at h
    | some d =>
      cases hd : decode d with
      | error e => simp [hr, hd] at h
      | ok i => simp [hr, hd] at h; exact .inr ⟨l, rest, d, i, rfl, hr, hd, h⟩

/-! ### One read -/

/-- A view that holds no unspecified bit is read as its bits. -/
theorem exec_read1_of_view {s : State} {d : Designator} {l : Loc} {w : Nat} {v : BitVec w} (hv : d.valid = true)
    (hl : d.loc s.params = some l) (hw : d.width = .bits w) (hsp : s.specified d = true)
    (hs : (s.viewAt l).specifiedBelow w = true) (hval : (s.viewAt l).val.setWidth w = v) :
    exec (.read1 d) s = .next ((s.logResults [.bits w v]).advanceDraws 1) := by
  rw [exec_read1_of_valid hv (.inr hsp), State.regRead_of_specified _ hl hw hs, hval]

/-- A register whose view is its cell's low-order bits is read as those bits. -/
theorem exec_read1_of_cell {s : State} {d : Designator} {l : Loc} {w : Nat} {v : BitVec w} (hv : d.valid = true)
    (hl : d.loc s.params = some l) (hw : d.width = .bits w) (hle : w ≤ l.width) (hview : s.viewAt l = s.cellAt l)
    (ha : l.apIndex = none) (hs : (s.cellAt l).specifiedBelow w = true) (hval : (s.cellAt l).val.setWidth w = v) :
    exec (.read1 d) s = .next ((s.logResults [.bits w v]).advanceDraws 1) := by
  refine exec_read1_of_view hv hl hw ?_ (by rw [hview]; exact hs) (by rw [hview]; exact hval)
  simp [State.specified, hl, State.specifiedAt, ha, hw, ViewWidth.size, Nat.min_eq_left hle, hs]

/-- The low w bits of a cell of n bits, where those have a value. -/
theorem Cell.widen_low {n : Nat} (v k : BitVec n) (w : Nat) (hw : w ≤ n) (hn : n ≤ 512)
    (h : k.setWidth w = BitVec.allOnes w) :
    (Cell.widen ⟨v, k⟩).specifiedBelow w = true ∧ (Cell.widen ⟨v, k⟩).val.setWidth w = v.setWidth w := by
  constructor
  · rw [Cell.widen_specifiedBelow _ hw hn]
    intro i hi
    have := congrArg (fun b => b.getLsbD i) h
    simpa [hi] using this
  · simp [BitVec.setWidth_setWidth_of_le _ (by omega : w ≤ 512)]

/-- Two names of one place and one width are read alike. -/
theorem exec_read1_congr {s : State} {d e : Designator} (hv : d.valid = e.valid)
    (hl : d.loc s.params = e.loc s.params) (hw : d.width = e.width) :
    exec (.read1 d) s = exec (.read1 e) s := by
  have h1 : s.specified d = s.specified e := by simp [State.specified, hl, hw]
  have h2 : ∀ k, s.regRead d k = s.regRead e k := by
    intro k; obtain ⟨f, c⟩ := d; simp only [State.regRead, State.view, hl]; rw [hw]
  simp [exec, execRead1, readPattern, hv, h1, State.readAll, h2]

/-! ### One write -/

/-- A WRITE1 of a value of bits that no check refuses stores it in the register's cell. -/
theorem exec_write1_of_cell {s : State} {d : Designator} {l : Loc} {w : Nat} (b : BitVec w) (hv : d.valid = true)
    (hw : d.width = .bits w) (hl : d.loc s.params = some l) (hr : writeRefusal s.params (d, .bits w b) = none) :
    exec (.write1 d (.bits w b)) s = .next ((s.setCell l (Cell.store b)).logResults []) := by
  rw [exec_write1_of_checks hv (by rw [hw]; rfl) hr, State.regWrite_of_loc hl]; rfl

theorem exec_write1_congr {s : State} {d e : Designator} {v : Value} (hv : d.valid = e.valid)
    (hl : d.loc s.params = e.loc s.params) (hw : d.width = e.width)
    (hr : writeRefusal s.params (d, v) = writeRefusal s.params (e, v)) :
    exec (.write1 d v) s = exec (.write1 e v) s := by
  have h2 : s.regWrite d v = s.regWrite e v := by simp only [State.regWrite, hl]
  simp [exec, execWrite1, writePattern, hv, hw, hr, anyOverlap, List.findSome?, State.writeAll, h2]

/-- The only refusals of stage 4 (R130). -/
theorem writeRefusal_cases {p : Params} {w : Designator × Value} {r : Refusal} (h : writeRefusal p w = some r) :
    r = .unmodelledWrite ∨ r = .reservedFieldWrite := by
  unfold writeRefusal at h
  split at h
  · unfold sprWriteRefusal at h
    repeat' split at h
    all_goals first | (cases h; done) | (injection h with h; subst h; simp)
  · cases h

/-! ### Two registers -/

theorem Designator.overlap_iff {p : Params} {d e : Designator} :
    d.overlap p e = true ↔ d.valid = true ∧ e.valid = true ∧ ∃ l, d.loc p = some l ∧ e.loc p = some l := by
  simp only [Designator.overlap, Bool.and_eq_true, decide_eq_true_eq, and_assoc]
  constructor
  · rintro ⟨h1, h2, h3, h4⟩
    obtain ⟨l, hl⟩ := Option.isSome_iff_exists.1 h3
    exact ⟨h1, h2, l, hl, h4 ▸ hl⟩
  · rintro ⟨h1, h2, l, h3, h4⟩; exact ⟨h1, h2, by simp [h3], by rw [h3, h4]⟩

theorem Designator.overlap_comm (p : Params) (d e : Designator) : d.overlap p e = e.overlap p d := by
  rw [Bool.eq_iff_iff, Designator.overlap_iff, Designator.overlap_iff]
  constructor <;> rintro ⟨h1, h2, l, h3, h4⟩ <;> exact ⟨h2, h1, l, h4, h3⟩

/-- The overlap test of stage 3 (R130) over every two operands. -/
theorem anyOverlap_eq_false_iff (p : Params) (ds : List Designator) :
    anyOverlap p ds = false ↔ ds.Pairwise fun d e => d.overlap p e = false := by
  induction ds with
  | nil => simp [anyOverlap]
  | cons d ds ih => simp [anyOverlap, ih]

/-- Of the valid designators only R0 has no cell. -/
theorem Designator.eq_r0_of_loc {p : Params} {d : Designator} (hv : d.valid = true) (h : d.loc p = none) :
    d = ⟨.gpr, 0⟩ := by
  obtain ⟨f, c⟩ := d
  cases f
  · simp only [Designator.loc, gprLoc] at h
    split at h
    · next h0 => rw [Designator.mk.injEq]; exact ⟨rfl, BitVec.eq_of_toNat_eq h0⟩
    · simp at h
  · simp [Designator.loc] at h
  · simp only [Designator.loc, vrLoc] at h
    simp only [Designator.valid, decide_eq_true_eq] at hv
    repeat' split at h
    all_goals first | omega | cases h
  · simp [Designator.loc] at h

/-- A view of bits of an FPR or a VR lies within its cell and is the cell's low-order bits. -/
theorem Designator.view_of_fpr_vr {p : Params} {e : Designator} {l : Loc} {w : Nat}
    (hf : e.file = .fpr ∨ e.file = .vr) (hl : e.loc p = some l) (hw : e.width = .bits w) :
    w ≤ l.width ∧ l.width ≤ 512 ∧ l.apIndex = none ∧ ∀ s : State, s.viewAt l = s.cellAt l := by
  obtain ⟨f, c⟩ := e
  have ha : l.apIndex = none := by
    cases h : l.apIndex with
    | none => rfl
    | some i => have := (Designator.width_of_apIndex hl).1 (by simp [h]); simp [hw] at this
  have hv : ∀ l : Loc, l.width ≤ 512 := by intro l; cases l <;> simp [Loc.width]
  rcases hf with rfl | rfl
  · simp only [Designator.loc, Option.some.injEq] at hl
    simp only [Designator.width] at hw
    subst hl
    have hc : c.toNat < 48 := by
      by_contra h
      rw [fprLoc_apIndex, if_pos (by omega)] at ha; simp at ha
    have hle := Designator.width_le_of_fpr (p := p) hc
    rw [hw] at hle
    refine ⟨hle, hv _, ha, fun s => ?_⟩
    have hr : ∀ (r : FpAliasRows) (g : Nat) (i : Fin 16),
        s.viewAt (fprRowLoc r g i) = s.cellAt (fprRowLoc r g i) := by
      intro r g i
      unfold fprRowLoc
      split
      · rfl
      · cases r
        · simp only; split
          · rfl
          · split <;> rfl
        · rfl
    unfold fprLoc
    simp only
    split
    · rfl
    · exact hr _ _ _
  · simp only [Designator.loc] at hl
    simp only [Designator.width, ViewWidth.bits.injEq] at hw
    subst hw
    refine ⟨Designator.width_le_of_vr hl, hv _, ha, fun s => ?_⟩
    unfold vrLoc at hl
    repeat' split at hl
    all_goals first | (obtain rfl := Option.some.inj hl; rfl) | simp at hl

/-- A view no wider than the value just written to its cell is read as the value's low-order bits. -/
theorem exec_read1_of_regWrite {s : State} {d e : Designator} {w w' : Nat} {b : BitVec w} {l : Loc}
    (hv : e.valid = true) (hd : d.loc s.params = some l) (he : e.loc s.params = some l)
    (hw : e.width = .bits w') (hle : w' ≤ w) (hl : w' ≤ l.width) (h512 : l.width ≤ 512) (ha : l.apIndex = none)
    (hview : ∀ t : State, t.viewAt l = t.cellAt l) (r : List Value) :
    exec (.read1 e) ((s.regWrite d (.bits w b)).logResults r) =
      .next ((((s.regWrite d (.bits w b)).logResults r).logResults [.bits w' (b.setWidth w')]).advanceDraws 1) := by
  refine exec_read1_of_cell hv (by simpa using he) hw hl (hview _) ha ?_ ?_
  · rw [State.cellAt_logResults, State.regWrite_of_loc hd, State.cellAt_putAt_same]
    exact Cell.stored_specifiedBelow b hle hl
  · rw [State.cellAt_logResults, State.regWrite_of_loc hd, State.cellAt_putAt_same]
    exact Cell.stored_val b hl h512

theorem State.specified_of_loc {s : State} {d : Designator} {l : Loc} (hl : d.loc s.params = some l) :
    s.specified d = s.specifiedAt l d.width.size := by
  simp only [State.specified, hl]

/-- A view wider than the value just written to its cell holds unspecified bits. -/
theorem State.specified_of_narrow_regWrite {s : State} {d e : Designator} {w w' : Nat} {b : BitVec w} {l : Loc}
    (hd : d.loc s.params = some l) (he : e.loc s.params = some l) (hw : e.width = .bits w') (hlt : w < w')
    (hl : w' ≤ l.width) (h512 : l.width ≤ 512) (ha : l.apIndex = none) :
    (s.regWrite d (.bits w b)).specified e = false := by
  rw [State.specified_of_loc (l := l) (by simpa using he), State.regWrite_of_loc hd, hw]
  unfold State.specifiedAt
  rw [ha]
  simp only [ViewWidth.size, Nat.min_eq_left hl, State.cellAt_putAt_same]
  exact Cell.stored_unspecified b hlt hl h512

theorem exec_read1_of_unspecified {s : State} {d : Designator} (hv : d.valid = true)
    (hp : s.params.unspecifiedRead = .fault) (hs : s.specified d = false) :
    exec (.read1 d) s = .fault .unspecifiedRead := by
  simp [exec, execRead1, readPattern, hv, hp, hs]

/-- Two writes of two places may be done in either order. -/
theorem State.regWrite_comm {s : State} {d e : Designator} (v v' : Value)
    (h : d.loc s.params = e.loc s.params → d.loc s.params = none) :
    (s.regWrite d v).regWrite e v' = (s.regWrite e v').regWrite d v := by
  unfold State.regWrite
  cases h1 : d.loc s.params with
  | none => cases h2 : e.loc s.params <;> simp [h1]
  | some l => cases h2 : e.loc s.params with
    | none => simp [h1, h2]
    | some m =>
      simp only [State.putAt_params, h1, h2]
      exact State.putAt_comm s (fun e => by simp [h1, h2, e] at h) _ _

end Sys2Proof.Machine
end

