-- ==== Sys2Proof/Laws/PerInstr.lean ====
section
/-! SUPPORT. What holds of every operation as syntax, one lemma per constructor of Instr. -/

/-- The descriptor of an operation has six bits and a file letter for each operand, the codes in operand
order from the left, and the values the operation carries (R107, R109). -/
def Sys2Proof.Laws.DescriptorForm.Statement (i : Sys2Proof.Instr) : Prop :=
  (Sys2Proof.encode i).codes.length = 6 * i.designators.length ∧
  (Sys2Proof.encode i).files = i.designators.map Sys2Proof.Designator.file ∧
  (Sys2Proof.encode i).values = i.writes.map Prod.snd ∧
  (Sys2Proof.encode i).codes.bits.toNat = i.designators.foldl (fun n d => n * 64 + d.code.toNat) 0

namespace Sys2Proof.Laws

/-- A code appended on the right takes the low six bits. -/
theorem toNat_append_code {w : Nat} (x : BitVec w) (c : Code) : (x ++ c).toNat = x.toNat * 64 + c.toNat := by
  rw [BitVec.toNat_append, Nat.shiftLeft_eq, show (64 : Nat) = 2 ^ 6 from rfl,
    Nat.mul_comm, ← Nat.two_pow_add_eq_or_of_lt c.isLt]

theorem DescriptorForm.read1 (d1 : Designator) : DescriptorForm.Statement (.read1 d1) :=
  ⟨rfl, rfl, rfl, by simp [encode, codes1, Instr.designators]⟩

theorem DescriptorForm.read2 (d1 d2 : Designator) : DescriptorForm.Statement (.read2 d1 d2) :=
  ⟨rfl, rfl, rfl, by simp [encode, codes2, Instr.designators, toNat_append_code]⟩

theorem DescriptorForm.read3 (d1 d2 d3 : Designator) : DescriptorForm.Statement (.read3 d1 d2 d3) :=
  ⟨rfl, rfl, rfl, by simp [encode, codes3, Instr.designators, toNat_append_code]⟩

theorem DescriptorForm.read4 (d1 d2 d3 d4 : Designator) : DescriptorForm.Statement (.read4 d1 d2 d3 d4) :=
  ⟨rfl, rfl, rfl, by simp [encode, codes4, Instr.designators, toNat_append_code]⟩

theorem DescriptorForm.write1 (d1 : Designator) (v1 : Value) : DescriptorForm.Statement (.write1 d1 v1) :=
  ⟨rfl, rfl, rfl, by simp [encode, codes1, Instr.designators]⟩

theorem DescriptorForm.write2 (d1 : Designator) (v1 : Value) (d2 : Designator) (v2 : Value) :
    DescriptorForm.Statement (.write2 d1 v1 d2 v2) :=
  ⟨rfl, rfl, rfl, by simp [encode, codes2, Instr.designators, toNat_append_code]⟩

theorem DescriptorForm.write3 (d1 : Designator) (v1 : Value) (d2 : Designator) (v2 : Value) (d3 : Designator)
    (v3 : Value) : DescriptorForm.Statement (.write3 d1 v1 d2 v2 d3 v3) :=
  ⟨rfl, rfl, rfl, by simp [encode, codes3, Instr.designators, toNat_append_code]⟩

theorem DescriptorForm.write4 (d1 : Designator) (v1 : Value) (d2 : Designator) (v2 : Value) (d3 : Designator)
    (v3 : Value) (d4 : Designator) (v4 : Value) : DescriptorForm.Statement (.write4 d1 v1 d2 v2 d3 v3 d4 v4) :=
  ⟨rfl, rfl, rfl, by simp [encode, codes4, Instr.designators, toNat_append_code]⟩

end Sys2Proof.Laws
end

