-- ==== Sys2Proof/Laws/Soundness.lean ====
section
/-! SUPPORT. The canonical form of the storage cells (`State.CellsSound`): every store keeps it. -/

namespace Sys2Proof.Machine

theorem Cell.unspecified_sound (w : Nat) (vs : List Nat) (h : 0 ∈ vs) : (Cell.unspecified w).Sound vs :=
  ⟨by simp [Cell.unspecified], 0, h, by simp [Cell.unspecified, BitVec.of_length_zero]⟩

/-- What a view of one of the cell's widths leaves is sound. -/
theorem Cell.store_sound {w n : Nat} (b : BitVec w) (vs : List Nat) (hn : n ≤ 512) (h : w ∈ vs) :
    ((Cell.store b).narrow n).Sound vs := by
  rw [Cell.store_narrow b n hn]
  refine ⟨?_, w, h, rfl⟩
  apply BitVec.eq_of_getLsbD_eq
  intro i hi
  simp only [BitVec.getLsbD_and, BitVec.getLsbD_not, BitVec.getLsbD_setWidth, BitVec.getLsbD_allOnes, hi,
    decide_true, Bool.true_and, BitVec.getLsbD_zero]
  by_cases hw : i < w
  · simp [hw]
  · simp [BitVec.getLsbD_of_ge _ _ (Nat.le_of_not_lt hw)]

/-- What a view at least as wide as the cell leaves is sound (FLAGS, CONFIG). -/
theorem Cell.store_sound_of_wide {w n : Nat} (b : BitVec w) (vs : List Nat) (hn : n ≤ 512) (h : n ≤ w)
    (hv : n ∈ vs) : ((Cell.store b).narrow n).Sound vs := by
  rw [Cell.store_narrow b n hn]
  have e : (BitVec.allOnes w).setWidth n = BitVec.allOnes n := by
    apply BitVec.eq_of_getLsbD_eq; intro i hi; simp [hi]; omega
  exact ⟨by rw [e]; simp, n, hv, by simp [e]⟩

theorem Cell.sound_set {n w : Nat} {v : Vector (Cell w) n} {vs : List Nat} (i : Fin n) (c : Cell w)
    (h : ∀ j : Fin n, v[j].Sound vs) (hc : c.Sound vs) : ∀ j : Fin n, (v.set i c)[j].Sound vs := by
  intro j
  show ((v.set i c)[j.val]).Sound vs
  rw [Vector.getElem_set]
  split
  · exact hc
  · exact h j

/-- The widths of the values that can reach a cell. -/
def cellTakes (p : Params) (l : Loc) (w : Nat) : Prop :=
  match l with
  | .g _ => w = 64
  | .pf _ => w ∈ fprViews
  | .fs _ => w = 32
  | .fd _ => w = 64
  | .fq _ => w ∈ fqViews p.fpAliasRows
  | .ap _ => True
  | .pv _ => w ∈ vrViews
  | .vw _ => w = 512
  | .vh _ => w = 256
  | .sp => w = 64
  | .fp => w = 64
  | .lr => w = 64
  | .flags => w = 64
  | .priority => w = 8
  | .config => w = 64
  | .spr _ => True

theorem cellTakes_fprRowLoc (p : Params) (i : Fin 16) :
    cellTakes p (fprRowLoc p.fpAliasRows 0 i) 32 ∧ cellTakes p (fprRowLoc p.fpAliasRows 1 i) 64 ∧
      cellTakes p (fprRowLoc p.fpAliasRows 2 i) 128 := by
  cases hp : p.fpAliasRows <;> fin_cases i <;> simp [fprRowLoc, cellTakes, fprViews, fqViews, hp]

/-- A value of a register's width is one its cell takes. -/
theorem cellTakes_of_width {p : Params} {d : Designator} {l : Loc} {w : Nat} {b : BitVec w}
    (hl : d.loc p = some l) (hw : (Value.bits w b).width = d.width) : cellTakes p l w := by
  obtain ⟨f, c⟩ := d
  have hc := c.isLt
  cases f
  · simp only [Designator.loc, gprLoc] at hl
    split at hl
    · simp at hl
    · obtain rfl := Option.some.inj hl; simpa [Value.width, Designator.width, cellTakes] using hw
  · simp only [Designator.loc, Option.some.injEq] at hl
    simp only [Value.width, Designator.width] at hw
    subst hl
    have hb : c.toNat < 48 := by
      by_contra hh
      unfold fprWidth at hw
      rw [if_neg (by omega), if_neg (by omega), if_neg (by omega)] at hw
      cases hw
    have hgr : c.toNat / 16 = 0 ∨ c.toNat / 16 = 1 ∨ c.toNat / 16 = 2 := by omega
    unfold fprLoc
    unfold fprWidth at hw
    have k := cellTakes_fprRowLoc p ⟨c.toNat % 16, Nat.mod_lt _ (by decide)⟩
    rcases hgr with hg | hg | hg
    · rw [if_pos (by omega)] at hw
      injection hw with hw
      rw [hw]; simp only [hg]; exact k.1
    · rw [if_neg (by omega), if_pos (by omega)] at hw
      injection hw with hw
      rw [hw]; simp only [hg]; exact k.2.1
    · rw [if_neg (by omega), if_neg (by omega), if_pos (by omega)] at hw
      injection hw with hw
      rw [hw]; simp only [hg]; exact k.2.2
  · simp only [Designator.loc] at hl
    simp only [Value.width, Designator.width, ViewWidth.bits.injEq, vrWidth] at hw
    unfold vrLoc at hl
    repeat' split at hl
    all_goals first
      | (cases hl; done)
      | (obtain rfl := Option.some.inj hl
         repeat' split at hw
         all_goals (simp only [vrViews, cellTakes, hw]; try first | omega | decide))
  · simp only [Designator.loc, Option.some.injEq] at hl
    simp only [Value.width, Designator.width, ViewWidth.bits.injEq, sprWidth] at hw
    unfold sprLoc at hl
    repeat' split at hl
    all_goals subst hl
    all_goals unfold cellTakes
    all_goals try trivial
    all_goals first
      | (rename_i h _; rw [h] at hw; simpa using hw)
      | (rename_i h; rw [h] at hw; simpa using hw)
      | (rename_i h _ _; rw [h] at hw; simpa using hw)

/-- `RegWrite` of a value of the register's width keeps the cells sound. -/
theorem State.regWrite_sound {s : State} {d : Designator} {v : Value} (hs : s.CellsSound)
    (hw : v.width = d.width) : (s.regWrite d v).CellsSound := by
  unfold State.regWrite
  cases hl : d.loc s.params with
  | none => exact hs
  | some l =>
    simp only
    obtain ⟨g, pf, fs, fd, fq, ap, pv, vw, vh, sp, fp, lr, fl, pr, cf⟩ := hs
    cases v with
    | ap a =>
      simp only [State.putAt]
      split
      · rename_i i hi
        refine ⟨g, pf, fs, fd, fq, ?_, pv, vw, vh, sp, fp, lr, fl, pr, cf⟩
        intro j; rw [State.setAp_getElem]; split
        · simp
        · exact ap j
      · exact ⟨g, pf, fs, fd, fq, ap, pv, vw, vh, sp, fp, lr, fl, pr, cf⟩
    | bits w b =>
      simp only [State.putAt]
      have key : cellTakes s.params l w := cellTakes_of_width hl hw
      have st : ∀ {n : Nat} (vs : List Nat), n ≤ 512 → w ∈ vs → ((Cell.store b).narrow n).Sound vs :=
        fun vs hn h => Cell.store_sound b vs hn h
      unfold cellTakes at key
      cases l <;> simp only at key <;> simp only [State.setCell]
      all_goals first | subst key | skip
      · exact ⟨Cell.sound_set _ _ g (st _ (by omega) (by decide)), pf, fs, fd, fq, ap, pv, vw, vh, sp, fp, lr, fl, pr, cf⟩
      · exact ⟨g, Cell.sound_set _ _ pf (st _ (by omega) key), fs, fd, fq, ap, pv, vw, vh, sp, fp, lr, fl, pr, cf⟩
      · exact ⟨g, pf, Cell.sound_set _ _ fs (st _ (by omega) (by decide)), fd, fq, ap, pv, vw, vh, sp, fp, lr, fl, pr, cf⟩
      · exact ⟨g, pf, fs, Cell.sound_set _ _ fd (st _ (by omega) (by decide)), fq, ap, pv, vw, vh, sp, fp, lr, fl, pr, cf⟩
      · exact ⟨g, pf, fs, fd, Cell.sound_set _ _ fq (st _ (by omega) key), ap, pv, vw, vh, sp, fp, lr, fl, pr, cf⟩
      · exact ⟨g, pf, fs, fd, fq, ap, pv, vw, vh, sp, fp, lr, fl, pr, cf⟩
      · exact ⟨g, pf, fs, fd, fq, ap, Cell.sound_set _ _ pv (st _ (by omega) key), vw, vh, sp, fp, lr, fl, pr, cf⟩
      · exact ⟨g, pf, fs, fd, fq, ap, pv, Cell.sound_set _ _ vw (st _ (by omega) (by decide)), vh, sp, fp, lr, fl, pr, cf⟩
      · exact ⟨g, pf, fs, fd, fq, ap, pv, vw, Cell.sound_set _ _ vh (st _ (by omega) (by decide)), sp, fp, lr, fl, pr, cf⟩
      · exact ⟨g, pf, fs, fd, fq, ap, pv, vw, vh, st _ (by omega) (by decide), fp, lr, fl, pr, cf⟩
      · exact ⟨g, pf, fs, fd, fq, ap, pv, vw, vh, sp, st _ (by omega) (by decide), lr, fl, pr, cf⟩
      · exact ⟨g, pf, fs, fd, fq, ap, pv, vw, vh, sp, fp, st _ (by omega) (by decide), fl, pr, cf⟩
      · exact ⟨g, pf, fs, fd, fq, ap, pv, vw, vh, sp, fp, lr, Cell.store_sound_of_wide _ _ (by omega) (by omega) (by decide), pr, cf⟩
      · exact ⟨g, pf, fs, fd, fq, ap, pv, vw, vh, sp, fp, lr, fl, st _ (by omega) (by decide), cf⟩
      · exact ⟨g, pf, fs, fd, fq, ap, pv, vw, vh, sp, fp, lr, fl, pr, Cell.store_sound_of_wide _ _ (by omega) (by omega) (by decide)⟩
      · exact ⟨g, pf, fs, fd, fq, ap, pv, vw, vh, sp, fp, lr, fl, pr, cf⟩

end Sys2Proof.Machine
end

