-- ==== Sys2Proof/Tests/Slice0.lean ====
section
/-! SUPPORT. Tests of the model on the values 95_test_vectors.md gives, and a witness for the hypotheses of
each obligation that has some. -/

namespace Sys2Proof.Tests

open Sys2Proof.Machine

/-! ### Helpers -/

/-- The parameters of 95_test_vectors.md; the machine of its vectors faults on an unspecified bit. -/
def vectorParams : Params where
  pcValue := 0x1000
  coreIdValue := 2
  threadIdValue := 1
  coreCount := 4
  threadCount := 2
  cacheSize := 0x0100
  memorySize := 0x4000
  featuresValue := 0xFFF
  fpAliasRows := .rows8
  vecAliasRows := .rows4
  sprGprAlias := .separate
  unspecifiedRead := .fault
  byteOrder := .little
  sprAccessPermitted := true

/-- The start state of the vectors. -/
def fresh : State := { State.reset with params := vectorParams }

/-- The same with `FP_ALIAS_ROWS` = 16 and SPR SP, LR, FP shared with the GPRs. -/
def shared : State :=
  { fresh with params := { vectorParams with fpAliasRows := .rows16, sprGprAlias := .shared } }

/-- The start state of a machine that draws. -/
def drawing : State := { fresh with params := { vectorParams with unspecifiedRead := .draw } }

/-- A state every cell of which has a value. -/
def filled (s : State) : State :=
  { s with
    g := Vector.replicate 63 ⟨7, BitVec.allOnes 64⟩
    pf := Vector.replicate 8 ⟨7, BitVec.allOnes 128⟩
    fs := Vector.replicate 8 ⟨7, BitVec.allOnes 32⟩
    fd := Vector.replicate 8 ⟨7, BitVec.allOnes 64⟩
    fq := Vector.replicate 8 ⟨7, BitVec.allOnes 128⟩
    ap := Vector.replicate 16 ⟨.base, true⟩
    pv := Vector.replicate 4 ⟨7, BitVec.allOnes 512⟩
    vw := Vector.replicate 12 ⟨7, BitVec.allOnes 512⟩
    vh := Vector.replicate 4 ⟨7, BitVec.allOnes 256⟩
    sp := ⟨7, BitVec.allOnes 64⟩
    fp := ⟨7, BitVec.allOnes 64⟩
    lr := ⟨7, BitVec.allOnes 64⟩
    flags := ⟨7, BitVec.allOnes 16⟩
    priority := ⟨7, BitVec.allOnes 8⟩
    config := ⟨7, BitVec.allOnes 8⟩ }

def full : State := filled fresh

def isNext : Result → Bool
  | .next _ => true
  | .fault _ => false
  | .refused _ => false

/-- The results of the last operation. -/
def lastOf : Result → Option (List Value)
  | .next t => t.results.getLast?
  | .fault _ => none
  | .refused _ => none

def faultOf : Result → Option Fault
  | .next _ => none
  | .fault r => some r
  | .refused _ => none

def refusalOf : Result → Option Refusal
  | .next _ => none
  | .fault _ => none
  | .refused r => some r

def decodedTo (d : Descriptor) : Option Instr :=
  match decode d with
  | .ok i => some i
  | .error _ => none

def errorOf (d : Descriptor) : Option DecodeError :=
  match decode d with
  | .ok _ => none
  | .error e => some e

def r (n : Nat) : Designator := ⟨.gpr, BitVec.ofNat 6 n⟩
def f (n : Nat) : Designator := ⟨.fpr, BitVec.ofNat 6 n⟩
def v (n : Nat) : Designator := ⟨.vr, BitVec.ofNat 6 n⟩
def sr (n : Nat) : Designator := ⟨.spr, BitVec.ofNat 6 n⟩

/-! ### WellFormed: each check refuses a term that is ill-formed in it alone -/

theorem test_wellformed_refuses_vr_code_32 :
    (Instr.read1 (v 32)).designatorsValid = false ∧ (Instr.read1 (v 31)).designatorsValid = true := by decide
theorem test_wellformed_refuses_spr_code_12 :
    (Instr.read1 (sr 12)).wellFormed = false ∧ (Instr.read1 (sr 11)).wellFormed = true := by decide
theorem test_wellformed_refuses_wrong_width :
    (Instr.write1 (r 5) (.bits 32 0x2A)).widthsMatch = false ∧
    (Instr.write1 (r 5) (.bits 64 0x2A)).wellFormed = true := by decide
theorem test_wellformed_refuses_overlap :
    (Instr.write2 (f 3) (.bits 32 1) (f 35) (.bits 128 1)).writesDisjoint vectorParams = false ∧
    (Instr.write2 (f 8) (.bits 32 1) (f 24) (.bits 64 1)).writesDisjoint vectorParams = true := by decide

/-! ### Decoding, from the bit strings of 95_test_vectors.md section 2 and R109 -/

theorem test_decode_read1 : decodedTo ⟨.READ1, [.gpr], ⟨6, 0b001010#6⟩, []⟩ = some (.read1 (r 10)) := by decide
theorem test_decode_read2 :
    decodedTo ⟨.READ2, [.gpr, .fpr], ⟨12, 0b001010010001#12⟩, []⟩ = some (.read2 (r 10) (f 17)) := by decide
theorem test_decode_read3 :
    decodedTo ⟨.READ3, [.gpr, .gpr, .gpr], ⟨18, 0b000001000010000000#18⟩, []⟩ =
      some (.read3 (r 1) (r 2) (r 0)) := by decide
theorem test_decode_read4 :
    decodedTo ⟨.READ4, [.vr, .vr, .vr, .vr], ⟨24, 0b000000010000011000011100#24⟩, []⟩ =
      some (.read4 (v 0) (v 16) (v 24) (v 28)) := by decide
theorem test_decode_write1 :
    decodedTo ⟨.WRITE1, [.fpr], ⟨6, 0b100001#6⟩, [.bits 128 5]⟩ = some (.write1 (f 33) (.bits 128 5)) := by decide
theorem test_decode_write2 :
    decodedTo ⟨.WRITE2, [.gpr, .spr], ⟨12, 0b000010000001#12⟩, [.bits 64 7, .bits 64 8]⟩ =
      some (.write2 (r 2) (.bits 64 7) (sr 1) (.bits 64 8)) := by decide
theorem test_decode_write3 :
    decodedTo ⟨.WRITE3, [.fpr, .fpr, .fpr], ⟨18, 0b000001010010100011#18⟩, [.bits 32 1, .bits 64 2, .bits 128 3]⟩ =
      some (.write3 (f 1) (.bits 32 1) (f 18) (.bits 64 2) (f 35) (.bits 128 3)) := by decide
theorem test_decode_write4 :
    decodedTo ⟨.WRITE4, [.vr, .vr, .vr, .vr], ⟨24, 0b011100011101011110011111#24⟩,
        [.bits 64 1, .bits 64 2, .bits 64 3, .bits 64 4]⟩ =
      some (.write4 (v 28) (.bits 64 1) (v 29) (.bits 64 2) (v 30) (.bits 64 3) (v 31) (.bits 64 4)) := by decide
theorem test_decode_refuses_by_name :
    errorOf ⟨.READ2, [.gpr, .gpr], ⟨6, 0⟩, []⟩ = some .codeLength ∧
    errorOf ⟨.READ1, [.gpr, .gpr], ⟨6, 0⟩, []⟩ = some .fileCount ∧
    errorOf ⟨.WRITE1, [.gpr], ⟨6, 0⟩, []⟩ = some .valueCount := by decide
/-- The padding bits of a byte and the bits above a length are dropped (log entry 2). -/
theorem test_decode_drops_padding : decodeTableWord 8 0b11001010 = some (.read1 (r 10)) ∧
    decodeTableWord 16 0b1111000001000010 = some (.read2 (r 1) (r 2)) := by decide
theorem test_decode_of_a_table_word :
    decodeTableWord 8 0b001010 = some (.read1 (r 10)) ∧ decodeTableWord 24 0b000001000010000011 =
      some (.read3 (r 1) (r 2) (r 3)) := by decide

/-! ### Names and fields (SRC3 to SRC7) -/

theorem test_names :
    (RegName.gpr (.t 3)).designator = r 16 ∧ (RegName.gpr (.s 2)).designator = r 20 ∧
    (RegName.gpr (.a 6)).designator = r 24 ∧ (RegName.gpr (.addr 9)).designator = r 41 ∧
    (RegName.gpr (.tmp 15)).designator = r 63 ∧ (RegName.ap 15).designator = f 63 ∧
    (RegName.spr (.reserved 3)).designator = sr 15 := by decide
theorem test_fields :
    Flag.bit .IOPL = 9 ∧ Flag.bit .VIP = 15 ∧ Enable.bit .TRACE_EN = 7 ∧ Feature.bit .POWER_MGMT = 11 := by decide
theorem test_elements : element (0xBBBBBBBBAAAAAAAA#64) 0 = 0xAAAAAAAA ∧
    element (0xBBBBBBBBAAAAAAAA#64) 1 = 0xBBBBBBBB ∧ elementCount 512 = 16 := by decide

/-! ### The READ patterns -/

/-- GV1, and the example of R121. -/
theorem test_read1_values :
    lastOf (exec (.read1 (r 0)) fresh) = some [.bits 64 0] ∧
    lastOf (exec (.read1 (r 10)) { fresh with g := fresh.g.set 9 ⟨7, BitVec.allOnes 64⟩ }) = some [.bits 64 7] := by
  decide
/-- GV2, SV16, and the same register on a machine that draws. -/
theorem test_read1_stops :
    faultOf (exec (.read1 (r 1)) fresh) = some .unspecifiedRead ∧
    refusalOf (exec (.read1 (sr 12)) fresh) = some .reservedSpecifier ∧
    isNext (exec (.read1 (r 1)) drawing) = true := by decide
/-- SV3, FV9 with 16 alias rows. -/
theorem test_read2_values :
    lastOf (exec (.read2 (sr 5) (sr 6)) fresh) = some [.bits 32 2, .bits 32 1] ∧
    lastOf (exec (.read2 (f 8) (f 40)) { shared with fq := shared.fq.set 0 ⟨5, BitVec.allOnes 128⟩ }) =
      some [.bits 32 5, .bits 128 5] := by decide +kernel
/-- OV1. -/
theorem test_read2_checks_validity_first :
    refusalOf (exec (.read2 (r 1) (v 40)) fresh) = some .reservedSpecifier := by decide
/-- FV5. -/
theorem test_read3_views :
    lastOf (exec (.read3 (f 7) (f 23) (f 39))
      { fresh with pf := fresh.pf.set 7 ⟨0x0000000000000000FFFFFFFF00000001, BitVec.allOnes 128⟩ }) =
      some [.bits 32 0x00000001, .bits 64 0xFFFFFFFF00000001, .bits 128 0xFFFFFFFF00000001] := by decide
/-- FV4: PF[0][127:64] has no value after a write of D0. -/
theorem test_read3_faults_on_one_operand :
    faultOf (exec (.read3 (f 0) (f 16) (f 32))
      { fresh with pf := fresh.pf.set 0 ⟨5, 0xFFFFFFFFFFFFFFFF⟩ }) = some .unspecifiedRead := by decide
/-- VV8 after the write, from the four cells. -/
theorem test_read4_views :
    lastOf (exec (.read4 (v 0) (v 16) (v 24) (v 28))
      { fresh with pv := fresh.pv.set 0 ⟨0xE0000003E0000002E0000001E0000000, BitVec.allOnes 512⟩ }) =
      some [.bits 512 0xE0000003E0000002E0000001E0000000, .bits 256 0xE0000003E0000002E0000001E0000000,
        .bits 128 0xE0000003E0000002E0000001E0000000, .bits 64 0xE0000001E0000000] := by decide +kernel
/-- VV5: V20 has its own cell. -/
theorem test_read4_faults_on_v20 :
    faultOf (exec (.read4 (v 4) (r 0) (r 0) (v 20))
      { fresh with vw := fresh.vw.set 0 ⟨1, BitVec.allOnes 512⟩ }) = some .unspecifiedRead := by decide +kernel

/-! ### The WRITE patterns -/

def nextOf : Result → State
  | .next t => t
  | .fault _ => fresh
  | .refused _ => fresh

/-- FV7: a write of F2 takes the value of every bit of PF[2] above 31 away. -/
theorem test_write1_narrow :
    (nextOf (exec (.write1 (f 2) (.bits 32 0x33333333))
      { fresh with pf := fresh.pf.set 2 ⟨0x1111111122222222, 0xFFFFFFFFFFFFFFFF⟩ })).pf[2] =
      ⟨0x33333333, 0xFFFFFFFF⟩ := by decide
/-- GV7, SV2, SV8, SV11, SV12. -/
theorem test_write1_refusals :
    refusalOf (exec (.write1 (r 5) (.bits 32 0x2A)) fresh) = some .widthMismatch ∧
    refusalOf (exec (.write1 (sr 0) (.bits 64 0x2000)) fresh) = some .unmodelledWrite ∧
    refusalOf (exec (.write1 (sr 4) (.bits 64 0x10000)) fresh) = some .reservedFieldWrite ∧
    refusalOf (exec (.write1 (sr 8) (.bits 64 0x4000010002040100)) fresh) = some .reservedFieldWrite ∧
    refusalOf (exec (.write1 (sr 8) (.bits 64 1)) fresh) = some .unmodelledWrite := by decide
/-- FV11; SV17. -/
theorem test_write2_two_cells :
    (nextOf (exec (.write2 (f 8) (.bits 32 1) (f 24) (.bits 64 2)) fresh)).fd[0] = ⟨2, BitVec.allOnes 64⟩ ∧
    (nextOf (exec (.write2 (r 2) (.bits 64 0x7000) (sr 1) (.bits 64 0x8000)) fresh)).g[1] =
      ⟨0x7000, BitVec.allOnes 64⟩ := by decide
/-- OV3, OV4, OV5, OV6. -/
theorem test_write2_refusals :
    refusalOf (exec (.write2 (r 5) (.bits 32 0x2A) (r 5) (.bits 64 0x2A)) fresh) = some .widthMismatch ∧
    refusalOf (exec (.write2 (r 5) (.bits 64 1) (r 5) (.bits 64 1)) fresh) = some .writeConflict ∧
    refusalOf (exec (.write2 (sr 0) (.bits 64 1) (sr 0) (.bits 64 1)) fresh) = some .writeConflict ∧
    refusalOf (exec (.write2 (r 7) (.bits 64 7) (sr 0) (.bits 64 1)) fresh) = some .unmodelledWrite := by decide
/-- FV15, OV9. -/
theorem test_write3_allowed :
    isNext (exec (.write3 (f 1) (.bits 32 1) (f 18) (.bits 64 2) (f 35) (.bits 128 3)) fresh) = true ∧
    isNext (exec (.write3 (r 1) (.bits 64 1) (f 1) (.bits 32 2) (v 1) (.bits 512 3)) fresh) = true := by decide
/-- R133: the first and the third operand. -/
theorem test_write3_conflict :
    refusalOf (exec (.write3 (f 1) (.bits 32 1) (r 1) (.bits 64 2) (f 33) (.bits 128 3)) fresh) =
      some .writeConflict := by decide
/-- VV8. -/
theorem test_write4_four_cells :
    (nextOf (exec (.write4 (v 28) (.bits 64 1) (v 29) (.bits 64 2) (v 30) (.bits 64 3) (v 31) (.bits 64 4)) fresh)).pv =
      #v[⟨1, 0xFFFFFFFFFFFFFFFF⟩, ⟨2, 0xFFFFFFFFFFFFFFFF⟩, ⟨3, 0xFFFFFFFFFFFFFFFF⟩, ⟨4, 0xFFFFFFFFFFFFFFFF⟩] := by
  decide +kernel
/-- R134: the second and the fourth operand. -/
theorem test_write4_conflict :
    refusalOf (exec (.write4 (r 1) (.bits 64 1) (v 1) (.bits 512 2) (r 2) (.bits 64 3) (v 29) (.bits 64 4)) fresh) =
      some .writeConflict := by decide

/-! ### The step -/

theorem test_step_runs_a_table_word :
    lastOf (step (fresh.withFetchWord 16 0)) = some [.bits 64 0, .bits 64 0] ∧
    isNext (step (State.reset.withFetchWord 8 0b001010)) = true := by decide
/-- P1, step 3: `WRITE1 R6 <- $2.1`. -/
theorem test_step_takes_an_earlier_result :
    (nextOf (step ({ fresh with results := [[], [.bits 64 0x2A, .bits 64 0]] }.withProgram
      [⟨.WRITE1, [.gpr], ⟨6, 0b000110⟩, [.result 2 1]⟩]))).g[5] = ⟨0x2A, BitVec.allOnes 64⟩ := by decide

/-! ### Witnesses: for each obligation with hypotheses, states and operands that meet them -/

/-- The last VR code. -/
theorem witness_EncodeOfDecodeIsTheDescriptor :
    decode ⟨.READ1, [.vr], ⟨6, 0b011111#6⟩, []⟩ = .ok (.read1 (v 31)) := by decide
theorem witness_EveryGprAndSprHasOneName :
    (RegName.gpr (.tmp 15)).designator = (RegName.gpr (.tmp 15)).designator ∧ (15#6).toNat ≤ 15 ∧
    (RegName.spr .pc).designator = (RegName.spr .pc).designator := by decide
theorem witness_AddrNamesAreTheAddressRegisters :
    isNext (exec (.write1 (RegName.gpr (.addr 15)).designator (.bits 64 9)) fresh) = true ∧
    isNext (exec (.write1 (RegName.r 32).designator (.bits 64 9)) fresh) = true := by decide
/-- The first and the last code of every clause. -/
theorem witness_CodesAndWidthsOfTheFourFiles :
    BitVec.extractLsb' 4 2 (15#6) = 0b00#2 ∧ BitVec.extractLsb' 4 2 (16#6) = 0b01#2 ∧
    BitVec.extractLsb' 4 2 (31#6) = 0b01#2 ∧ BitVec.extractLsb' 4 2 (47#6) = 0b10#2 ∧
    BitVec.extractLsb' 4 2 (48#6) = 0b11#2 ∧ BitVec.extractLsb' 3 3 (23#6) = 0b010#3 ∧
    BitVec.extractLsb' 2 4 (24#6) = 0b0110#4 ∧ BitVec.extractLsb' 2 4 (31#6) = 0b0111#4 ∧
    ((5#6 = 5#6 ∨ 5#6 = 6#6) ∧ 7#6 = 7#6 ∧ 11#6 ≠ 5#6 ∧ 11#6 ≠ 6#6 ∧ 11#6 ≠ 7#6) := by decide
theorem witness_StepRunsTheNextOperation :
    (⟨.READ1, [.gpr], ⟨6, 0b001010⟩, []⟩ : ProgramLine).resolve [] = some ⟨.READ1, [.gpr], ⟨6, 0b001010⟩, []⟩ ∧
    decode ⟨.READ1, [.gpr], ⟨6, 0b001010⟩, []⟩ = .ok (.read1 (r 10)) ∧
    (fresh.withFetchWord 8 0b001010).program = ⟨.READ1, [.gpr], ⟨6, 0b001010⟩, []⟩ :: [] := by decide
theorem witness_StepAtTheEndOfTheProgramStays : fresh.program = [] := rfl
theorem witness_StepRefusesALineThatIsNoOperation :
    (⟨.WRITE1, [.gpr], ⟨6, 0⟩, [.result 1 1]⟩ : ProgramLine).resolve fresh.results = none ∧
    (⟨.READ1, [.gpr], ⟨7, 0⟩, []⟩ : ProgramLine).resolve fresh.results = some ⟨.READ1, [.gpr], ⟨7, 0⟩, []⟩ ∧
    decode ⟨.READ1, [.gpr], ⟨7, 0⟩, []⟩ = .error .codeLength := by decide
/-- k and j at 0, at the last result and one past the end. -/
theorem witness_StepRefusesALineThatIsNoOperation_results :
    let rs : List (List Value) := [[.bits 64 7], [.bits 64 8, .bits 64 9]]
    (ValueExpr.result 2 2).resolve rs = some (.bits 64 9) ∧ (ValueExpr.result 1 1).resolve rs = some (.bits 64 7) ∧
    (ValueExpr.result 0 1).resolve rs = none ∧ (ValueExpr.result 1 0).resolve rs = none ∧
    (ValueExpr.result 3 1).resolve rs = none ∧ (ValueExpr.result 2 3).resolve rs = none := by decide
theorem witness_AFetchedTableWordRunsNext :
    decodeTableWord 8 63 = some (.read1 (r 63)) ∧ decodeTableWord 24 (2 ^ 18) = some (.read4 (r 1) (r 0) (r 0) (r 0)) := by
  decide
theorem witness_AStepAddsOneListOfResults :
    isNext (step (full.withFetchWord 8 1)) = true ∧ (full.withFetchWord 8 1).program ≠ [] := by decide

/-- Every clause of READ1: an invalid designator, an unspecified and a specified register, a write of R0 and
a narrow read after a wider write. -/
theorem witness_Read1FaultsOrReturnsTheRegister :
    fresh.params.unspecifiedRead = .fault ∧ (v 32).valid = false ∧ (v 31).valid = true ∧
    fresh.specified (v 31) = false ∧ full.specified (v 31) = true ∧
    isNext (exec (.write1 (r 0) (.bits 64 5)) fresh) = true ∧
    Designator.overlap fresh.params (f 39) (f 7) = true ∧ (f 7).width = .bits 32 ∧
    isNext (exec (.write1 (f 39) (.bits 128 5)) fresh) = true ∧
    Designator.overlap fresh.params (v 3) (v 31) = true ∧
    isNext (exec (.write1 (v 3) (.bits 512 5)) fresh) = true := by decide +kernel
theorem witness_Read2FaultsOrReturnsBothRegisters :
    ((r 1).valid && (v 40).valid) = false ∧ ((r 0).valid && (r 63).valid) = true ∧
    (fresh.specified (r 0) && fresh.specified (r 63)) = false ∧
    (full.specified (r 0) && full.specified (r 63)) = true ∧
    r 63 ∉ ([⟨.spr, 4⟩, ⟨.spr, 8⟩, ⟨.spr, 10⟩, ⟨.spr, 11⟩] : List Designator) ∧
    full.pf[0] = ⟨7, BitVec.allOnes 128⟩ := by decide
theorem witness_Read3FaultsOrReturnsAllThree :
    ((r 1).valid && (r 2).valid && (sr 12).valid) = false ∧
    ((r 0).valid && (r 1).valid && (f 63).valid) = true ∧
    (fresh.specified (r 0) && fresh.specified (r 1) && fresh.specified (f 63)) = false ∧
    (full.specified (r 0) && full.specified (r 1) && full.specified (f 63)) = true ∧
    f 63 ∉ ([⟨.spr, 4⟩, ⟨.spr, 8⟩, ⟨.spr, 10⟩, ⟨.spr, 11⟩] : List Designator) := by decide
theorem witness_Read4FaultsOrReturnsAllFour :
    ((r 1).valid && (r 2).valid && (r 3).valid && (v 32).valid) = false ∧
    ((v 0).valid && (v 16).valid && (v 24).valid && (v 28).valid) = true ∧
    (fresh.specified (v 0) && fresh.specified (v 16) && fresh.specified (v 24) && fresh.specified (v 28)) = false ∧
    (full.specified (v 0) && full.specified (v 16) && full.specified (v 24) && full.specified (v 28)) = true ∧
    v 28 ∉ ([⟨.spr, 4⟩, ⟨.spr, 8⟩, ⟨.spr, 10⟩, ⟨.spr, 11⟩] : List Designator) ∧
    isNext (exec (.write1 (v 0) (.bits 512 5)) fresh) = true := by decide +kernel
theorem witness_ReadsCompleteWhereUnspecifiedBitsAreDrawn :
    drawing.params.unspecifiedRead = .draw ∧ State.reset.params.unspecifiedRead = .draw ∧
    ((sr 11).valid && (v 31).valid && (f 63).valid && (r 63).valid) = true := by decide
theorem witness_ReadsChangeNoRegister :
    (Instr.read2 (r 0) (v 31)).writes = [] ∧ isNext (exec (.read2 (r 0) (v 31)) drawing) = true := by decide
theorem witness_ReadingAGprReturnsItsCell :
    (1#6).toNat = (0 : Fin 63).val + 1 ∧ (63#6).toNat = (62 : Fin 63).val + 1 ∧
    full.g[(0 : Fin 63)] = ⟨7, BitVec.allOnes 64⟩ ∧ full.g[(62 : Fin 63)] = ⟨7, BitVec.allOnes 64⟩ ∧
    drawing.g[(62 : Fin 63)] = ⟨0, 0⟩ ∧ drawing.params.unspecifiedRead = .draw := by decide
/-- A cell after a write of the register of each width. -/
theorem witness_ReadingASharedFprReturnsTheLowBits :
    (0xFFFFFFFF#128).setWidth 32 = BitVec.allOnes 32 ∧
    (0xFFFFFFFFFFFFFFFF#128).setWidth 64 = BitVec.allOnes 64 ∧
    full.pf[(7 : Fin 8)] = ⟨7, BitVec.allOnes 128⟩ := by decide
theorem witness_ReadingAnUpperFprRowFollowsTheAliasParameter :
    fresh.params.fpAliasRows = .rows8 ∧ shared.params.fpAliasRows = .rows16 ∧
    full.fs[(7 : Fin 8)] = ⟨7, BitVec.allOnes 32⟩ ∧ full.fd[(7 : Fin 8)] = ⟨7, BitVec.allOnes 64⟩ ∧
    full.fq[(7 : Fin 8)] = ⟨7, BitVec.allOnes 128⟩ ∧ (filled shared).fq[(0 : Fin 8)] = ⟨7, BitVec.allOnes 128⟩ := by
  decide
theorem witness_ReadingAnApRegisterReturnsTheLastValueStored :
    full.ap[(15 : Fin 16)].written = true ∧ fresh.ap[(15 : Fin 16)].written = false ∧
    fresh.params.unspecifiedRead = .fault ∧ drawing.ap[(0 : Fin 16)].written = false ∧
    drawing.params.unspecifiedRead = .draw := by decide
theorem witness_ReadingASharedVrReturnsTheLowBits :
    full.pv[(3 : Fin 4)] = ⟨7, BitVec.allOnes 512⟩ ∧
    ((BitVec.allOnes 256).setWidth 512).setWidth 256 = BitVec.allOnes 256 ∧
    ((BitVec.allOnes 128).setWidth 512).setWidth 128 = BitVec.allOnes 128 ∧
    ((BitVec.allOnes 64).setWidth 512).setWidth 64 = BitVec.allOnes 64 := by decide +kernel
theorem witness_ReadingAnUnsharedVrReturnsItsCell :
    full.vw[(11 : Fin 12)] = ⟨7, BitVec.allOnes 512⟩ ∧ full.vh[(3 : Fin 4)] = ⟨7, BitVec.allOnes 256⟩ := by
  decide +kernel
theorem witness_ReadingAStoredSprReturnsItsCell :
    fresh.params.sprGprAlias = .separate ∧ shared.params.sprGprAlias = .shared ∧
    full.sp = ⟨7, BitVec.allOnes 64⟩ ∧ full.fp = ⟨7, BitVec.allOnes 64⟩ ∧ full.lr = ⟨7, BitVec.allOnes 64⟩ ∧
    full.priority = ⟨7, BitVec.allOnes 8⟩ := by decide
theorem witness_ReadingFlagsAndConfigReturnsTheStoredBits :
    full.flags = ⟨7, BitVec.allOnes 16⟩ ∧ full.config = ⟨7, BitVec.allOnes 8⟩ := by decide

/-- Every clause of WRITE1: an invalid designator, a wrong width, an SPR's refusal, a write that completes, F3
and F9 of row 8. -/
theorem witness_Write1IsRefusedOrWritesTheRegister :
    (sr 12).valid = false ∧ (sr 11).valid = true ∧ (Value.bits 32 0).width ≠ (sr 11).width ∧
    (Value.bits 64 0).width = (sr 11).width ∧
    writeRefusal fresh.params (sr 11, .bits 64 0) = some .unmodelledWrite ∧
    writeRefusal fresh.params (sr 4, .bits 64 0x8000) = none ∧
    writeRefusal fresh.params (sr 4, .bits 64 0x10000) = some .reservedFieldWrite ∧
    isNext (exec (.write1 (f 3) (.bits 32 5)) fresh) = true ∧ fresh.params.unspecifiedRead = .fault ∧
    fresh.params.fpAliasRows = .rows8 := by decide
theorem witness_Write2IsRefusedOrWritesBothRegisters :
    ((r 1).valid && (v 32).valid) = false ∧ ((r 5).valid && (r 5).valid) = true ∧
    Designator.overlap fresh.params (r 5) (r 5) = true ∧ Designator.overlap fresh.params (r 5) (sr 0) = false ∧
    writeRefusal fresh.params (r 5, .bits 64 1) = none ∧
    writeRefusal fresh.params (sr 0, .bits 64 1) = some .unmodelledWrite ∧
    (Value.bits 64 1).width = (r 5).width ∧ (Value.bits 64 1).width = (sr 0).width ∧
    ¬((Value.bits 32 1).width = (r 5).width ∧ (Value.bits 64 1).width = (r 5).width) ∧
    fresh.params.fpAliasRows = .rows8 ∧ fresh.params.sprGprAlias = .separate ∧
    Designator.overlap fresh.params (r 1) (r 2) = false := by decide
theorem witness_Write3IsRefusedOrWritesAllThree :
    ((r 1).valid && (r 2).valid && (sr 15).valid) = false ∧ ((r 1).valid && (r 2).valid && (sr 0).valid) = true ∧
    (Value.bits 64 1).width = (r 2).width ∧ (Value.bits 64 1).width = (sr 0).width ∧
    (Designator.overlap fresh.params (r 1) (r 2) || Designator.overlap fresh.params (r 1) (r 1) ||
      Designator.overlap fresh.params (r 2) (r 1)) = true ∧
    (Designator.overlap fresh.params (r 1) (r 2) || Designator.overlap fresh.params (r 1) (sr 0) ||
      Designator.overlap fresh.params (r 2) (sr 0)) = false ∧
    writeRefusal fresh.params (sr 0, .bits 64 1) = some .unmodelledWrite ∧
    writeRefusal fresh.params (r 1, .bits 64 1) = none ∧
    ¬((Value.bits 64 1).width = (r 1).width ∧ (Value.bits 64 1).width = (r 2).width ∧
      (Value.bits 32 1).width = (r 3).width) := by decide
theorem witness_Write4IsRefusedOrWritesAllFour :
    ((r 1).valid && (r 2).valid && (r 3).valid && (v 32).valid) = false ∧
    ((r 1).valid && (r 2).valid && (r 3).valid && (sr 0).valid) = true ∧
    Designator.overlap fresh.params (r 3) (r 3) = true ∧
    (Designator.overlap fresh.params (r 1) (r 2) || Designator.overlap fresh.params (r 1) (r 3) ||
      Designator.overlap fresh.params (r 1) (sr 0) || Designator.overlap fresh.params (r 2) (r 3) ||
      Designator.overlap fresh.params (r 2) (sr 0) || Designator.overlap fresh.params (r 3) (sr 0)) = false ∧
    (Value.bits 64 1).width = (r 3).width ∧ (Value.bits 64 1).width = (sr 0).width ∧
    (Value.bits 32 1).width ≠ (r 3).width ∧
    writeRefusal fresh.params (sr 0, .bits 64 1) = some .unmodelledWrite ∧
    writeRefusal fresh.params (r 3, .bits 64 1) = none := by decide
theorem witness_WritingAGprStoresTheValue :
    (0#6 = 0#6) ∧ (1#6).toNat = (0 : Fin 63).val + 1 ∧ (63#6).toNat = (62 : Fin 63).val + 1 := by decide
theorem witness_WritingAnUpperFprRowFollowsTheAliasParameter :
    fresh.params.fpAliasRows = .rows8 ∧ shared.params.fpAliasRows = .rows16 := by decide
theorem witness_WritingAStoredSprStoresTheValue :
    fresh.params.sprGprAlias = .separate ∧ shared.params.sprGprAlias = .shared := by decide
theorem witness_WritingFlagsStoresTheNamedFlags : (0#48 = 0#48) ∧ 1#48 ≠ 0#48 := by decide
theorem witness_WritingConfigStoresTheEnables :
    1#8 ≠ 0#8 ∧ (0#8 = 0#8) ∧ 0#48 ≠ configUpper fresh.params ∧ 0x400001000204#48 = configUpper fresh.params := by decide
theorem witness_WritesChangeOnlyTheCellsTheyName :
    (Instr.write1 (f 3) (.bits 32 5)).writes ≠ [] ∧ isNext (exec (.write1 (f 3) (.bits 32 5)) full) = true ∧
    Designator.loc full.params (f 3) ≠ some (.pf 4) ∧ Designator.loc full.params (f 3) ≠ some (.ap 3) := by decide
/-- WRITE3 and WRITE4 with two operands swapped. -/
theorem witness_OperandOrderOfAWriteDoesNotMatter :
    let i : Instr := .write4 (f 3) (.bits 32 5) (r 63) (.bits 64 6) (v 1) (.bits 512 7) (sr 7) (.bits 8 8)
    let j : Instr := .write4 (v 1) (.bits 512 7) (r 63) (.bits 64 6) (f 3) (.bits 32 5) (sr 7) (.bits 8 8)
    i.writes ≠ [] ∧ i.writes.Perm j.writes ∧ isNext (exec i full) = true ∧
    (Instr.write3 (f 3) (.bits 32 5) (r 63) (.bits 64 6) (v 1) (.bits 512 7)).writes.Perm
      (Instr.write3 (v 1) (.bits 512 7) (f 3) (.bits 32 5) (r 63) (.bits 64 6)).writes ∧
    isNext (exec (.write3 (f 3) (.bits 32 5) (r 63) (.bits 64 6) (v 1) (.bits 512 7)) full) = true := by
  decide +kernel
theorem witness_NoOperationSetsAFlagAsASideEffect :
    isNext (exec (.write2 (sr 7) (.bits 8 5) (r 63) (.bits 64 6)) full) = true ∧
    (⟨.spr, 4⟩ : Designator) ∉ (Instr.write2 (sr 7) (.bits 8 5) (r 63) (.bits 64 6)).writes.map Prod.fst := by decide
/-- Each clause: another register, FLAGS, CONFIG. -/
theorem witness_AReadAfterAnOverlappingWriteSeesTheValue :
    isNext (exec (.write1 (f 39) (.bits 128 5)) fresh) = true ∧
    Designator.overlap fresh.params (f 39) (f 23) = true ∧ (f 23).width = .bits 64 ∧
    isNext (exec (.write1 (sr 4) (.bits 64 0xFFFF)) fresh) = true ∧
    Designator.overlap fresh.params (sr 4) (sr 4) = true ∧ (sr 4).width = .bits 64 ∧
    isNext (exec (.write1 (sr 8) (.bits 64 0x4000010002040003)) fresh) = true ∧
    Designator.overlap fresh.params (sr 8) (sr 8) = true ∧ (sr 8).width = .bits 64 := by decide
theorem witness_AWiderReadAfterANarrowWriteFaults :
    isNext (exec (.write1 (v 28) (.bits 64 5)) fresh) = true ∧
    Designator.overlap fresh.params (v 28) (v 24) = true ∧ (v 24).width = .bits 128 ∧
    fresh.params.unspecifiedRead = .fault := by decide
theorem witness_AWriteLeavesEveryOtherRegister :
    isNext (exec (.write1 (f 8) (.bits 32 5)) fresh) = true ∧ (f 24).valid = true ∧
    Designator.overlap fresh.params (f 8) (f 24) = false := by decide
theorem witness_TheLaterOfTwoWritesStays :
    isNext (exec (.write1 (r 5) (.bits 64 1)) fresh) = true ∧
    isNext (exec (.write1 (r 5) (.bits 64 2)) fresh) = true := by decide
theorem witness_EveryStepKeepsTheCellsSound :
    full.CellsSound ∧ isNext (step (full.withFetchWord 8 1)) = true := by decide +kernel
theorem witness_NoStepChangesAParameter : isNext (step (full.withFetchWord 24 0)) = true := by decide
theorem witness_ADrawingMachineNeverFaults : drawing.params.unspecifiedRead = .draw := rfl
theorem witness_OperationsAreRefusedForTheNamedReasonsOnly :
    refusalOf (exec (.write1 (sr 9) (.bits 64 0)) fresh) = some .unmodelledWrite ∧
    refusalOf (exec (.read1 (sr 15)) fresh) = some .reservedSpecifier := by decide
theorem witness_EnablesAndFeaturesGateNoRegister :
    (Instr.write2 (f 3) (.bits 32 5) (v 31) (.bits 64 6)).designators.all (fun d => d.file != .spr) = true := by decide

end Sys2Proof.Tests
end

/-! PROOF. The registers ADDR0 to ADDR15 (R30). -/

namespace Sys2Proof.Machine

/-- `ADDRn` is the designator of GPR code 32 + n, which has the cell `G[32+n]` (R30, R72). -/
theorem loc_addr (p : Params) (n : Fin 16) :
    (RegName.gpr (.addr n)).designator.loc p = some (.g ⟨31 + n.val, by omega⟩) := by
  refine loc_gpr p (BitVec.ofNat 6 (32 + n.val)) _ ?_
  have hlt : 32 + n.val < 2 ^ 6 := by omega
  rw [BitVec.toNat_ofNat, Nat.mod_eq_of_lt hlt, Nat.add_right_comm]

/-- A GPR with a cell returns the whole of the value the last WRITE1 stored in it (R29, R121, R131). -/
theorem exec_read1_of_gpr_write1 {s t : State} {c : Code} {i : Fin 63} {v : BitVec 64}
    (hl : Designator.loc s.params ⟨.gpr, c⟩ = some (.g i))
    (h : exec (.write1 ⟨.gpr, c⟩ (.bits 64 v)) s = .next t) :
    exec (.read1 ⟨.gpr, c⟩) t = .next ((t.logResults [.bits 64 v]).advanceDraws 1) := by
  obtain ⟨hvalid, _, _, rfl⟩ := exec_write1_next h
  have hwidth : Designator.width ⟨.gpr, c⟩ = .bits 64 := rfl
  have hread := exec_read1_of_regWrite (b := v) hvalid hl hl hwidth (Nat.le_refl 64) (Nat.le_refl 64)
    (by simp [Loc.width]) rfl (fun _ => rfl) []
  rwa [BitVec.setWidth_eq] at hread

/-- Settles O6: both names are the designator of GPR code 32 + n, and a GPR with a cell reads back
the whole of what was written to it. -/
theorem addrNamesAreTheAddressRegisters : Obligations.AddrNamesAreTheAddressRegisters := by
  unfold Obligations.AddrNamesAreTheAddressRegisters
  intro n s t v a r
  have hname : a = r := rfl
  have hloc : a.loc s.params = some (.g ⟨31 + n.val, by omega⟩) := loc_addr s.params n
  have hreadBack : exec (.write1 a (.bits 64 v)) s = .next t →
      exec (.read1 a) t = .next ((t.logResults [.bits 64 v]).advanceDraws 1) :=
    exec_read1_of_gpr_write1 hloc
  exact ⟨hname, rfl, hloc, hname ▸ hreadBack, hname ▸ hreadBack⟩

end Sys2Proof.Machine

/-! PROOF. The read patterns READ1 to READ4 (R120 to R124). -/

namespace Sys2Proof.Machine

/-! ### The stages of a READ -/

/-- Stage 1 of R120 comes before the unspecified bits, whatever the machine does with one. -/
theorem readPattern_of_invalid {ds : List Designator} {s : State} (h : ds.all Designator.valid = false) :
    readPattern ds s = .refused .reservedSpecifier := by
  simp only [readPattern, h, if_true]

/-- Stage 2 of R120 on a machine that faults on an unspecified bit. -/
theorem readPattern_of_unspecified {ds : List Designator} {s : State} (hp : s.params.unspecifiedRead = .fault)
    (hv : ds.all Designator.valid = true) (hs : ds.all s.specified = false) :
    readPattern ds s = .fault .unspecifiedRead := by
  simp only [readPattern, hv, hp, hs, Bool.true_eq_false, if_false, and_self, if_true]

/-- Stage 3 of R120. -/
theorem readPattern_of_specified {ds : List Designator} {s : State} (hv : ds.all Designator.valid = true)
    (hs : ds.all s.specified = true) :
    readPattern ds s = .next ((s.logResults (s.readAll ds s.draws)).advanceDraws ds.length) :=
  (readPattern_next_iff ds s _).2 ⟨hv, fun _ => hs, rfl⟩

theorem exec_read2_of_specified {s : State} {d1 d2 : Designator} (hv : (d1.valid && d2.valid) = true)
    (hs : (s.specified d1 && s.specified d2) = true) :
    exec (.read2 d1 d2) s =
      .next ((s.logResults [s.regRead d1 s.draws, s.regRead d2 (s.draws + 1)]).advanceDraws 2) :=
  readPattern_of_specified (by simpa using hv) (by simpa using hs)

theorem exec_read4_of_specified {s : State} {d1 d2 d3 d4 : Designator}
    (hv : (d1.valid && d2.valid && d3.valid && d4.valid) = true)
    (hs : (s.specified d1 && s.specified d2 && s.specified d3 && s.specified d4) = true) :
    exec (.read4 d1 d2 d3 d4) s =
      .next ((s.logResults [s.regRead d1 s.draws, s.regRead d2 (s.draws + 1), s.regRead d3 (s.draws + 2),
        s.regRead d4 (s.draws + 3)]).advanceDraws 4) :=
  readPattern_of_specified (by simpa [and_assoc] using hv) (by simpa [and_assoc] using hs)

/-! ### A specified view is read whole from the state -/

/-- The SPRs some bits of which are read as a draw even where their storage is specified: FLAGS, CONFIG,
CACHE_CTRL and POWER_CTRL (R59, R61, R63, R64). -/
def sprsWithDrawnBits : List Designator := [⟨.spr, 4⟩, ⟨.spr, 8⟩, ⟨.spr, 10⟩, ⟨.spr, 11⟩]

/-- Every other SPR is a parameter (PC, CORE_ID, THREAD_ID, FEATURES) or is stored whole (SP, FP, LR,
PRIORITY). -/
theorem spr_parameter_or_stored : ∀ c : Code, Designator.valid ⟨.spr, c⟩ = true → ⟨.spr, c⟩ ∉ sprsWithDrawnBits →
    c ∈ ([0, 5, 6, 9] : List Code) ∨ c ∈ ([1, 2, 3, 7] : List Code) := by decide

/-- An SPR that is a parameter has every bit (R67). -/
theorem State.view_specifiedBelow_of_parameter (s : State) {c : Code} (hc : c ∈ ([0, 5, 6, 9] : List Code)) :
    (s.view ⟨.spr, c⟩).specifiedBelow (sprWidth c) = true := by
  simp only [List.mem_cons, List.not_mem_nil, or_false] at hc
  rcases hc with rfl | rfl | rfl | rfl <;> exact Cell.store_specifiedBelow _ (Nat.le_refl _)

/-- SP, FP, LR and PRIORITY are views of the whole of their cells, under either `SPR_GPR_ALIAS` (R54, R57). -/
theorem sprLoc_of_stored (p : Params) {c : Code} (hc : c ∈ ([1, 2, 3, 7] : List Code)) :
    sprWidth c ≤ (sprLoc p c).width ∧ ∀ s : State, s.viewAt (sprLoc p c) = s.cellAt (sprLoc p c) := by
  simp only [List.mem_cons, List.not_mem_nil, or_false] at hc
  rcases hc with rfl | rfl | rfl | rfl <;> simp only [sprLoc] <;> cases p.sprGprAlias <;>
    exact ⟨by decide, fun _ => rfl⟩

/-- A view of bits that lies within its cell is specified exactly where the cell's bits below it are. -/
theorem State.specified_eq_cell {s : State} {d : Designator} {l : Loc} (hl : d.loc s.params = some l)
    (ha : l.apIndex = none) (hle : d.width.size ≤ l.width) :
    s.specified d = (s.cellAt l).specifiedBelow d.width.size := by
  simp only [State.specified_of_loc hl, State.specifiedAt, ha, Nat.min_eq_left hle]

theorem State.view_specifiedBelow_of_cell {s : State} {d : Designator} {l : Loc} (hl : d.loc s.params = some l)
    (ha : l.apIndex = none) (hle : d.width.size ≤ l.width) (hview : s.viewAt l = s.cellAt l)
    (hs : s.specified d = true) : (s.view d).specifiedBelow d.width.size = true := by
  simpa only [State.view, hl, hview, State.specified_eq_cell hl ha hle] using hs

theorem State.view_specifiedBelow_of_fpr_vr {s : State} {d : Designator} {l : Loc}
    (hf : d.file = .fpr ∨ d.file = .vr) (hl : d.loc s.params = some l) (ha : l.apIndex = none)
    (hs : s.specified d = true) : (s.view d).specifiedBelow d.width.size = true := by
  cases hw : d.width with
  | ap => simpa [ha] using (Designator.width_of_apIndex hl).2 hw
  | bits w =>
    obtain ⟨hle, _, _, hview⟩ := Designator.view_of_fpr_vr hf hl hw
    exact hw ▸ State.view_specifiedBelow_of_cell hl ha (hw ▸ hle) (hview s) hs

/-- A register of bits that a READ finds specified has a value in every bit of its view, but for the SPRs
with drawn bits. -/
theorem State.view_specifiedBelow {s : State} {d : Designator} (hv : d.valid = true) (hs : s.specified d = true)
    (hd : d ∉ sprsWithDrawnBits) (hbits : (d.loc s.params).bind Loc.apIndex = none) :
    (s.view d).specifiedBelow d.width.size = true := by
  cases hl : d.loc s.params with
  | none =>
    obtain rfl := Designator.eq_r0_of_loc hv hl
    exact Cell.store_specifiedBelow _ (Nat.le_refl _)
  | some l =>
    have ha : l.apIndex = none := by rwa [hl, Option.bind_some] at hbits
    obtain ⟨file, c⟩ := d
    cases file with
    | gpr =>
      have hgpr : gprLoc c = some l := hl
      unfold gprLoc at hgpr
      split at hgpr
      · cases hgpr
      · obtain rfl := Option.some.inj hgpr
        exact State.view_specifiedBelow_of_cell hl ha (Nat.le_refl _) rfl hs
    | fpr => exact State.view_specifiedBelow_of_fpr_vr (.inl rfl) hl ha hs
    | vr => exact State.view_specifiedBelow_of_fpr_vr (.inr rfl) hl ha hs
    | spr =>
      rcases spr_parameter_or_stored c hv hd with hc | hc
      · exact s.view_specifiedBelow_of_parameter hc
      · obtain ⟨hle, hview⟩ := sprLoc_of_stored s.params hc
        obtain rfl := Option.some.inj hl
        exact State.view_specifiedBelow_of_cell hl ha hle (hview s) hs

/-- `RegRead` of a specified register is a function of the state alone: whichever number its draw has, no
bit of it is taken from the draw (R70, R73). -/
theorem State.regRead_eq_of_specified {s : State} {d : Designator} (hv : d.valid = true)
    (hs : s.specified d = true) (hd : d ∉ sprsWithDrawnBits) (k k' : Nat) : s.regRead d k = s.regRead d k' := by
  cases ha : (d.loc s.params).bind Loc.apIndex with
  | none =>
    have hview := State.view_specifiedBelow hv hs hd ha
    simp only [State.regRead, ha, Cell.read_of_specified _ _ hview]
  | some i =>
    obtain ⟨l, hl, hi⟩ := Option.bind_eq_some_iff.1 ha
    have hwritten : s.ap[i].written = true := by
      simpa only [State.specified_of_loc hl, State.specifiedAt, hi] using hs
    simp only [State.regRead, ha, State.apRead, hwritten, if_true]

/-! ### What particular registers read as -/

/-- A view of bits within a cell that has them is specified and reads as the cell's low-order bits. -/
theorem State.specified_and_regRead_of_cell {s : State} {d : Designator} {l : Loc} {w : Nat} {v : BitVec w}
    (hl : d.loc s.params = some l) (hw : d.width = .bits w) (hle : w ≤ l.width) (ha : l.apIndex = none)
    (hview : s.viewAt l = s.cellAt l) (hs : (s.cellAt l).specifiedBelow w = true)
    (hval : (s.cellAt l).val.setWidth w = v) : s.specified d = true ∧ ∀ k, s.regRead d k = .bits w v := by
  constructor
  · have hsize : d.width.size = w := by rw [hw]; rfl
    rw [State.specified_eq_cell hl ha (hsize ▸ hle), hsize, hs]
  · intro k
    rw [State.regRead_of_specified k hl hw (hview ▸ hs), hview, hval]

/-- After a WRITE1 of an overlapping register, an FPR or VR view no wider than the value is specified and
reads as the value's low-order bits (R39, R47, R71). -/
theorem specified_and_regRead_of_write1 {s t : State} {d e : Designator} {w w' : Nat} {b : BitVec w}
    (hover : d.overlap s.params e = true) (hf : e.file = .fpr ∨ e.file = .vr) (hw : e.width = .bits w')
    (hle : w' ≤ w) (h : exec (.write1 d (.bits w b)) s = .next t) :
    t.specified e = true ∧ ∀ k, t.regRead e k = .bits w' (b.setWidth w') := by
  obtain ⟨_, _, _, rfl⟩ := exec_write1_next h
  obtain ⟨_, _, l, hd, he⟩ := Designator.overlap_iff.1 hover
  obtain ⟨hcell, h512, ha, hview⟩ := Designator.view_of_fpr_vr hf he hw
  have hstored : ((s.regWrite d (.bits w b)).logResults []).cellAt l = Cell.stored b l.width := by
    rw [State.cellAt_logResults, State.regWrite_of_loc hd, State.cellAt_putAt_same]
  refine State.specified_and_regRead_of_cell (by simpa using he) hw hcell ha (hview _) ?_ ?_
  · rw [hstored, Cell.stored_specifiedBelow b hle hcell]
  · rw [hstored, Cell.stored_val b hcell h512]

/-- A value just stored is read back whole, whatever is drawn. -/
theorem Cell.read_store {w : Nat} (b : BitVec w) (free : Wide) (h512 : w ≤ 512) :
    (Cell.store b).read w free = b := by
  rw [Cell.read_of_specified _ _ (Cell.store_specifiedBelow b (Nat.le_refl w)), Cell.store_val,
    BitVec.setWidth_setWidth_of_le _ h512, BitVec.setWidth_eq]

/-- R0 reads as 0 in every state (R29). -/
theorem exec_read1_r0 (s : State) :
    exec (.read1 ⟨.gpr, 0⟩) s = .next ((s.logResults [.bits 64 0#64]).advanceDraws 1) := by
  have hread : s.regRead ⟨.gpr, 0⟩ s.draws = .bits 64 0#64 :=
    congrArg (Value.bits 64) (Cell.read_store 0#64 _ (by decide))
  rw [exec_read1_of_valid rfl (.inr rfl), hread]

/-- PC reads as its parameter in every state (R53): it has no storage bit that could be unspecified. -/
theorem exec_read1_pc (s : State) :
    exec (.read1 ⟨.spr, 0⟩) s = .next ((s.logResults [.bits 64 s.params.pcValue]).advanceDraws 1) := by
  have hs : s.specified ⟨.spr, 0⟩ = true :=
    (Cell.specifiedBelow_iff _ 0).2 fun i _ hi => absurd hi (Nat.not_lt_zero i)
  have hread : s.regRead ⟨.spr, 0⟩ s.draws = .bits 64 s.params.pcValue :=
    congrArg (Value.bits 64) (Cell.read_store s.params.pcValue _ (by decide))
  rw [exec_read1_of_valid rfl (.inr hs), hread]

/-- Settles O17, from the stages of a READ; a narrow view has the bits of the wider value in its cell. -/
theorem read1FaultsOrReturnsTheRegister : Obligations.Read1FaultsOrReturnsTheRegister := by
  unfold Obligations.Read1FaultsOrReturnsTheRegister
  intro s d1 hp
  refine ⟨?_, ?_, ?_, ?_, ?_, ?_, ?_, rfl, rfl, rfl⟩
  · intro hv
    exact readPattern_of_invalid (by simpa using hv)
  · intro hv hs
    exact exec_read1_of_unspecified hv hp hs
  · intro hv hs
    exact exec_read1_of_valid hv (.inr hs)
  · rintro rfl t v _
    exact exec_read1_r0 t
  · rintro rfl
    exact exec_read1_r0 s
  · rintro rfl
    exact exec_read1_pc s
  · intro e w w' b t hover hf hw hlt hwrite
    obtain ⟨_, hv, _⟩ := Designator.overlap_iff.1 hover
    obtain ⟨hs, hread⟩ := specified_and_regRead_of_write1 hover hf hw (Nat.le_of_lt hlt) hwrite
    rw [exec_read1_of_valid hv (.inr hs), hread]

/-- Any view of the shared cell of row 0 of F, D and Q is specified and reads as its low-order bits where
the cell has all of them (R37, R38). -/
theorem specified_and_regRead_of_pf0 {s : State} {v : BitVec 128} (hcell : s.pf[0] = ⟨v, BitVec.allOnes 128⟩)
    {d : Designator} {w : Nat} (hl : d.loc s.params = some (.pf 0)) (hw : d.width = .bits w) (hle : w ≤ 128) :
    s.specified d = true ∧ ∀ k, s.regRead d k = .bits w (v.setWidth w) := by
  have hat : s.cellAt (.pf 0) = Cell.widen ⟨v, BitVec.allOnes 128⟩ := congrArg Cell.widen hcell
  have hmask : (BitVec.allOnes 128).setWidth w = BitVec.allOnes w := by
    apply BitVec.eq_of_getLsbD_eq
    intro i hi
    simp only [BitVec.getLsbD_setWidth, BitVec.getLsbD_allOnes, hi, Nat.lt_of_lt_of_le hi hle, decide_true,
      Bool.and_self]
  obtain ⟨hspec, hval⟩ := Cell.widen_low v _ w hle (by decide) hmask
  exact State.specified_and_regRead_of_cell hl hw hle rfl rfl (hat ▸ hspec) (hat ▸ hval)

/-- Settles O18, from the stages of a READ; F0 and D0 are two views of the cell of row 0. -/
theorem read2FaultsOrReturnsBothRegisters : Obligations.Read2FaultsOrReturnsBothRegisters := by
  unfold Obligations.Read2FaultsOrReturnsBothRegisters
  intro s d1 d2 hp
  refine ⟨?_, ?_, ?_, ?_, ?_, rfl, rfl, rfl⟩
  · intro hv
    exact readPattern_of_invalid (by simpa using hv)
  · intro hv hs
    exact readPattern_of_unspecified hp (by simpa using hv) (by simpa using hs)
  · intro hv hs
    exact exec_read2_of_specified hv hs
  · intro d _ hv hs hd k k'
    exact State.regRead_eq_of_specified hv hs hd k k'
  · rintro v hcell rfl rfl
    obtain ⟨hsF, hreadF⟩ := specified_and_regRead_of_pf0 hcell (d := ⟨.fpr, 0⟩) (w := 32) rfl rfl (by decide)
    obtain ⟨hsD, hreadD⟩ := specified_and_regRead_of_pf0 hcell (d := ⟨.fpr, 16⟩) (w := 64) rfl rfl (by decide)
    rw [exec_read2_of_specified rfl (by rw [hsF, hsD]; rfl), hreadF, hreadD]

/-- Settles O19, from the stages of a READ. -/
theorem read3FaultsOrReturnsAllThree : Obligations.Read3FaultsOrReturnsAllThree := by
  unfold Obligations.Read3FaultsOrReturnsAllThree
  intro s d1 d2 d3 hp
  refine ⟨?_, ?_, ?_, ?_, rfl, rfl, rfl⟩
  · intro hv
    exact readPattern_of_invalid (by simpa [Bool.and_assoc] using hv)
  · intro hv hs
    exact readPattern_of_unspecified hp (by simpa [and_assoc] using hv) (by simpa [and_assoc] using hs)
  · intro hv hs
    exact readPattern_of_specified (by simpa [and_assoc] using hv) (by simpa [and_assoc] using hs)
  · intro d _ hv hs hd k k'
    exact State.regRead_eq_of_specified hv hs hd k k'

/-- Settles O20, from the stages of a READ; V0, V16, V24 and V28 are four views of one cell. -/
theorem read4FaultsOrReturnsAllFour : Obligations.Read4FaultsOrReturnsAllFour := by
  unfold Obligations.Read4FaultsOrReturnsAllFour
  intro s d1 d2 d3 d4 hp
  refine ⟨?_, ?_, ?_, ?_, ?_, rfl, rfl, rfl⟩
  · intro hv
    exact readPattern_of_invalid (by simpa [Bool.and_assoc] using hv)
  · intro hv hs
    exact readPattern_of_unspecified hp (by simpa [and_assoc] using hv) (by simpa [and_assoc] using hs)
  · intro hv hs
    exact exec_read4_of_specified hv hs
  · intro d _ hv hs hd k k'
    exact State.regRead_eq_of_specified hv hs hd k k'
  · rintro x t rfl rfl rfl rfl hwrite
    have hview {e : Designator} {w : Nat} := specified_and_regRead_of_write1 (e := e) (w' := w) (h := hwrite)
    obtain ⟨hs0, hread0⟩ := hview (e := ⟨.vr, 0⟩) (w := 512) rfl (.inr rfl) rfl (by decide)
    obtain ⟨hs16, hread16⟩ := hview (e := ⟨.vr, 16⟩) (w := 256) rfl (.inr rfl) rfl (by decide)
    obtain ⟨hs24, hread24⟩ := hview (e := ⟨.vr, 24⟩) (w := 128) rfl (.inr rfl) rfl (by decide)
    obtain ⟨hs28, hread28⟩ := hview (e := ⟨.vr, 28⟩) (w := 64) rfl (.inr rfl) rfl (by decide)
    rw [exec_read4_of_specified rfl (by rw [hs0, hs16, hs24, hs28]; rfl), hread0, hread16, hread24, hread28,
      BitVec.setWidth_eq]

end Sys2Proof.Machine

/-! PROOF. The write patterns WRITE1 to WRITE4 (R130 to R134). -/

namespace Sys2Proof.Machine

/-! ### The stages of a WRITE -/

/-- Stage 1 of R130 comes before the widths, the overlaps and the SPRs. -/
theorem writePattern_of_invalid {ws : List (Designator × Value)} {s : State}
    (hv : (ws.all fun w => w.1.valid) = false) : writePattern ws s = .refused .reservedSpecifier := by
  simp only [writePattern, hv, if_true]

/-- Stage 2 of R130 comes before the overlaps and the SPRs. -/
theorem writePattern_of_wrong_width {ws : List (Designator × Value)} {s : State}
    (hv : (ws.all fun w => w.1.valid) = true) (hw : (ws.all fun w => decide (w.2.width = w.1.width)) = false) :
    writePattern ws s = .refused .widthMismatch := by
  simp only [writePattern, hv, hw, Bool.true_eq_false, if_false, if_true]

/-- Stage 3 of R130 comes before the SPRs. -/
theorem writePattern_of_overlap {ws : List (Designator × Value)} {s : State}
    (hv : (ws.all fun w => w.1.valid) = true) (hw : (ws.all fun w => decide (w.2.width = w.1.width)) = true)
    (ho : anyOverlap s.params (ws.map Prod.fst) = true) : writePattern ws s = .refused .writeConflict := by
  simp only [writePattern, hv, hw, ho, Bool.true_eq_false, if_false, if_true]

/-- Where stages 1 to 3 of R130 pass, stage 4 gives the first refusal in operand order, and stage 5 does
all the writes where there is none. -/
theorem writePattern_of_disjoint {ws : List (Designator × Value)} {s : State}
    (hv : (ws.all fun w => w.1.valid) = true) (hw : (ws.all fun w => decide (w.2.width = w.1.width)) = true)
    (ho : anyOverlap s.params (ws.map Prod.fst) = false) :
    (∀ r, ws.findSome? (writeRefusal s.params) = some r → writePattern ws s = .refused r) ∧
      (ws.findSome? (writeRefusal s.params) = none → writePattern ws s = .next ((s.writeAll ws).logResults [])) := by
  constructor
  · intro r hr
    simp only [writePattern, hv, hw, ho, hr, Bool.true_eq_false, Bool.false_eq_true, if_false]
  · intro hr
    exact (writePattern_next_iff ws s _).2 ⟨hv, hw, ho, hr, rfl⟩

/-- No stage of R130 is a fault. -/
theorem writePattern_ne_fault (ws : List (Designator × Value)) (s : State) (r : Fault) :
    writePattern ws s ≠ .fault r := by
  unfold writePattern
  repeat' split
  all_goals nofun

/-! ### Which registers overlap -/

/-- Registers of different cells do not overlap (R72). -/
theorem Designator.overlap_eq_false_of_loc_ne {p : Params} {d e : Designator} (h : d.loc p ≠ e.loc p) :
    d.overlap p e = false := by
  simp only [Designator.overlap, h, decide_false, Bool.and_false]

/-- F8 and D8 have cells of their own where only 8 rows are shared (R37). -/
theorem overlap_f8_d8_of_rows8 {p : Params} (h : p.fpAliasRows = .rows8) :
    Designator.overlap p ⟨.fpr, 8⟩ ⟨.fpr, 24⟩ = false := by
  apply Designator.overlap_eq_false_of_loc_ne
  have hf := loc_f_upper p 0 (by decide)
  have hd := loc_d_upper p 0 (by decide)
  rw [h] at hf hd
  exact fun heq => absurd (hf.symm.trans (heq.trans hd)) (by decide)

/-- SPR SP is no GPR where the SPRs are separate (R54). -/
theorem overlap_r2_sp_of_separate {p : Params} (h : p.sprGprAlias = .separate) :
    Designator.overlap p ⟨.gpr, 2⟩ ⟨.spr, 1⟩ = false := by
  apply Designator.overlap_eq_false_of_loc_ne
  have hgpr : Designator.loc p ⟨.gpr, 2⟩ = some (.g 1) := rfl
  have hspr : Designator.loc p ⟨.spr, 1⟩ = some .sp := by simp [Designator.loc, sprLoc, h]
  rw [hgpr, hspr]
  decide

/-! ### What a WRITE1 leaves to read -/

/-- An FPR or VR view no wider than the value a WRITE1 put in its cell reads as the value's low-order bits,
on either machine (R39, R47, R71). -/
theorem exec_read1_of_write1 {s t : State} {d e : Designator} {w w' : Nat} {b : BitVec w}
    (hover : d.overlap s.params e = true) (hf : e.file = .fpr ∨ e.file = .vr) (hw : e.width = .bits w')
    (hle : w' ≤ w) (h : exec (.write1 d (.bits w b)) s = .next t) :
    exec (.read1 e) t = .next ((t.logResults [.bits w' (b.setWidth w')]).advanceDraws 1) := by
  obtain ⟨_, hv, _⟩ := Designator.overlap_iff.1 hover
  obtain ⟨hs, hread⟩ := specified_and_regRead_of_write1 hover hf hw hle h
  rw [exec_read1_of_valid hv (.inr hs), hread]

/-- An FPR or VR view wider than the value a WRITE1 put in its cell faults on a machine that does (R39, R47,
R73). -/
theorem exec_read1_faults_of_narrow_write1 {s t : State} {d e : Designator} {w w' : Nat} {b : BitVec w}
    (hp : s.params.unspecifiedRead = .fault) (hover : d.overlap s.params e = true)
    (hf : e.file = .fpr ∨ e.file = .vr) (hw : e.width = .bits w') (hlt : w < w')
    (h : exec (.write1 d (.bits w b)) s = .next t) : exec (.read1 e) t = .fault .unspecifiedRead := by
  obtain ⟨_, _, _, rfl⟩ := exec_write1_next h
  obtain ⟨_, hv, l, hd, he⟩ := Designator.overlap_iff.1 hover
  obtain ⟨hcell, h512, ha, _⟩ := Designator.view_of_fpr_vr hf he hw
  refine exec_read1_of_unspecified hv (by simpa using hp) ?_
  rw [State.specified_logResults]
  exact State.specified_of_narrow_regWrite hd he hw hlt hcell h512 ha

/-! ### WRITE1 of particular registers -/

/-- A write of R0 stores nothing (R29, R71). -/
theorem State.regWrite_r0 (s : State) (v : Value) : s.regWrite ⟨.gpr, 0⟩ v = s := rfl

/-- A 32-bit store in the 128-bit cell of F3 leaves the bits above 31 without a value (R39). -/
theorem exec_write1_f3 (s : State) (a : BitVec 32) :
    exec (.write1 ⟨.fpr, 3⟩ (.bits 32 a)) s =
      .next (({ s with pf := s.pf.set 3 ⟨a.setWidth 128, 0xFFFFFFFF#128⟩ } : State).logResults []) := by
  have hcell : (Cell.store a).narrow 128 = ⟨a.setWidth 128, 0xFFFFFFFF#128⟩ := Cell.store_narrow a 128 (by decide)
  rw [exec_write1_of_cell (l := .pf 3) a rfl rfl rfl rfl, State.setCell, hcell]
  rfl

/-- Where only 8 rows are shared, F9 has a 32-bit cell of its own, which a write fills (R37). -/
theorem exec_write1_f9_of_rows8 {s : State} (h : s.params.fpAliasRows = .rows8) (a : BitVec 32) :
    exec (.write1 ⟨.fpr, 9⟩ (.bits 32 a)) s =
      .next (({ s with fs := s.fs.set 1 ⟨a, BitVec.allOnes 32⟩ } : State).logResults []) := by
  have hloc : Designator.loc s.params ⟨.fpr, 9⟩ = some (.fs 1) := by
    have hf := loc_f_upper s.params 1 (by decide)
    rwa [h] at hf
  have hcell : (Cell.store a).narrow 32 = ⟨a, BitVec.allOnes 32⟩ := by
    rw [Cell.store_narrow a 32 (by decide), BitVec.setWidth_eq, BitVec.setWidth_eq]
  rw [exec_write1_of_cell a rfl rfl hloc rfl, State.setCell, hcell]
  rfl

/-! ### The four patterns -/

/-- Settles O32, from the stages of a WRITE; what F3, D3 and Q3 read as follows from the width of the view
against the 32 bits written. -/
theorem write1IsRefusedOrWritesTheRegister : Obligations.Write1IsRefusedOrWritesTheRegister := by
  unfold Obligations.Write1IsRefusedOrWritesTheRegister
  intro s d1 v1
  refine ⟨?_, ?_, ?_, ?_, ?_, ?_, ?_, ?_, ?_, ?_, rfl, rfl, rfl⟩
  · intro hv
    exact writePattern_of_invalid (by simpa using hv)
  · intro hv hw
    exact writePattern_of_wrong_width (by simpa using hv) (by simpa using hw)
  · intro hv hw r hr
    exact (writePattern_of_disjoint (by simpa using hv) (by simpa using hw) rfl).1 r (by simp [hr])
  · intro hv hw hr
    exact exec_write1_of_checks hv hw hr
  · intro r
    exact writePattern_ne_fault _ s r
  · intro r hr
    exact writeRefusal_cases hr
  · rintro v rfl rfl
    rw [exec_write1_of_checks rfl rfl rfl, State.regWrite_r0]
  · rintro a rfl rfl
    exact exec_write1_f3 s a
  · rintro a h rfl rfl
    exact exec_write1_f9_of_rows8 h a
  · rintro a t rfl rfl hwrite
    have hF3 := exec_read1_of_write1 (e := ⟨.fpr, 3⟩) rfl (.inl rfl) rfl (Nat.le_refl 32) hwrite
    rw [BitVec.setWidth_eq] at hF3
    refine ⟨hF3, fun hp => ⟨?_, ?_⟩⟩
    · exact exec_read1_faults_of_narrow_write1 hp rfl (.inl rfl) (w' := 64) rfl (by decide) hwrite
    · exact exec_read1_faults_of_narrow_write1 hp rfl (.inl rfl) (w' := 128) rfl (by decide) hwrite

/-- Settles O33, from the stages of a WRITE and the cells of the registers R132 names. -/
theorem write2IsRefusedOrWritesBothRegisters : Obligations.Write2IsRefusedOrWritesBothRegisters := by
  unfold Obligations.Write2IsRefusedOrWritesBothRegisters
  intro s d1 d2 v1 v2
  refine ⟨?_, ?_, ?_, ?_, ?_, ?_, rfl, rfl, rfl⟩
  · intro hv
    exact writePattern_of_invalid (by simpa using hv)
  · intro hv hw
    exact writePattern_of_wrong_width (by simpa using hv) (by simpa using hw)
  · intro hv hw1 hw2
    have hvalid : ([(d1, v1), (d2, v2)].all fun w => w.1.valid) = true := by simpa using hv
    have hwidth : ([(d1, v1), (d2, v2)].all fun w => decide (w.2.width = w.1.width)) = true := by simp [hw1, hw2]
    have hstages (ho : d1.overlap s.params d2 = false) :=
      writePattern_of_disjoint hvalid hwidth (by simpa [anyOverlap] using ho)
    refine ⟨?_, ?_, ?_, ?_⟩
    · intro ho
      exact writePattern_of_overlap hvalid hwidth (by simpa [anyOverlap] using ho)
    · intro ho r h1
      exact (hstages ho).1 r (by simp [h1])
    · intro ho h1 r h2
      exact (hstages ho).1 r (by simp [h1, h2])
    · intro ho h1 h2
      exact (hstages ho).2 (by simp [h1, h2])
  · intro r
    exact writePattern_ne_fault _ s r
  · exact ⟨rfl, rfl, rfl, rfl, overlap_f8_d8_of_rows8, overlap_r2_sp_of_separate⟩
  · rintro a b rfl rfl rfl rfl
    exact (writePattern_of_disjoint (ws := [(⟨.gpr, 0⟩, .bits 64 a), (⟨.gpr, 0⟩, .bits 64 b)]) rfl rfl rfl).2 rfl

/-- Settles O34, from the stages of a WRITE. -/
theorem write3IsRefusedOrWritesAllThree : Obligations.Write3IsRefusedOrWritesAllThree := by
  unfold Obligations.Write3IsRefusedOrWritesAllThree
  intro s d1 d2 d3 v1 v2 v3
  refine ⟨?_, ?_, ?_, ?_, rfl, rfl, rfl⟩
  · intro hv
    exact writePattern_of_invalid (by simpa [Bool.and_assoc] using hv)
  · intro hv hw
    exact writePattern_of_wrong_width (by simpa [and_assoc] using hv) (by simpa using hw)
  · intro hv hw1 hw2 hw3
    have hvalid : ([(d1, v1), (d2, v2), (d3, v3)].all fun w => w.1.valid) = true := by
      simpa [and_assoc] using hv
    have hwidth : ([(d1, v1), (d2, v2), (d3, v3)].all fun w => decide (w.2.width = w.1.width)) = true := by
      simp [hw1, hw2, hw3]
    refine ⟨fun ho => ?_, fun ho => ?_⟩
    · exact writePattern_of_overlap hvalid hwidth (by simpa [anyOverlap, or_assoc] using ho)
    obtain ⟨hrefused, hwritten⟩ :=
      writePattern_of_disjoint hvalid hwidth (by simpa [anyOverlap, and_assoc] using ho)
    refine ⟨?_, ?_, ?_, ?_⟩
    · intro r h1
      exact hrefused r (by simp [h1])
    · intro h1 r h2
      exact hrefused r (by simp [h1, h2])
    · intro h1 h2 r h3
      exact hrefused r (by simp [h1, h2, h3])
    · intro h1 h2 h3
      exact hwritten (by simp [h1, h2, h3])
  · intro r
    exact writePattern_ne_fault _ s r

/-- Settles O35, from the stages of a WRITE. -/
theorem write4IsRefusedOrWritesAllFour : Obligations.Write4IsRefusedOrWritesAllFour := by
  unfold Obligations.Write4IsRefusedOrWritesAllFour
  intro s d1 d2 d3 d4 v1 v2 v3 v4
  refine ⟨?_, ?_, ?_, ?_, rfl, rfl, rfl⟩
  · intro hv
    exact writePattern_of_invalid (by simpa [Bool.and_assoc] using hv)
  · intro hv hw
    exact writePattern_of_wrong_width (by simpa [and_assoc] using hv) (by simpa using hw)
  · intro hv hw1 hw2 hw3 hw4
    have hvalid : ([(d1, v1), (d2, v2), (d3, v3), (d4, v4)].all fun w => w.1.valid) = true := by
      simpa [and_assoc] using hv
    have hwidth : ([(d1, v1), (d2, v2), (d3, v3), (d4, v4)].all fun w => decide (w.2.width = w.1.width)) = true := by
      simp [hw1, hw2, hw3, hw4]
    refine ⟨fun ho => ?_, fun ho => ?_⟩
    · exact writePattern_of_overlap hvalid hwidth (by simpa [anyOverlap, or_assoc] using ho)
    obtain ⟨hrefused, hwritten⟩ :=
      writePattern_of_disjoint hvalid hwidth (by simpa [anyOverlap, and_assoc] using ho)
    refine ⟨?_, ?_, ?_, ?_, ?_⟩
    · intro r h1
      exact hrefused r (by simp [h1])
    · intro h1 r h2
      exact hrefused r (by simp [h1, h2])
    · intro h1 h2 r h3
      exact hrefused r (by simp [h1, h2, h3])
    · intro h1 h2 h3 r h4
      exact hrefused r (by simp [h1, h2, h3, h4])
    · intro h1 h2 h3 h4
      exact hwritten (by simp [h1, h2, h3, h4])
  · intro r
    exact writePattern_ne_fault _ s r

end Sys2Proof.Machine

/-! PROOF. Descriptors: `decode` and `encode` are inverse to each other (R107 to R109). -/

namespace Sys2Proof

/-! ### Six bits of a bit string -/

theorem codeAt_single (c : Code) : codeAt 1 0 ⟨6, c⟩ = c :=
  BitVec.extractLsb'_eq_self

/-- The last operand's code stands in the low six bits. -/
theorem codeAt_append_last {w : Nat} (n : Nat) (x : BitVec w) (c : Code) : codeAt (n + 1) n ⟨w + 6, x ++ c⟩ = c := by
  have hstart : 6 * (n + 1 - 1 - n) = 0 := by omega
  simp only [codeAt, hstart, BitVec.extractLsb'_append_eq_right]

/-- The other operands' codes stand above the last one as they would without it. -/
theorem codeAt_append_of_lt {w n k : Nat} (h : k < n) (x : BitVec w) (c : Code) :
    codeAt (n + 1) k ⟨w + 6, x ++ c⟩ = codeAt n k ⟨w, x⟩ := by
  have hstart : 6 * (n + 1 - 1 - k) - 6 = 6 * (n - 1 - k) := by omega
  simp only [codeAt, BitVec.extractLsb'_append_eq_of_le (show 6 ≤ 6 * (n + 1 - 1 - k) by omega), hstart]

theorem codeAt_codes2 (d1 d2 : Designator) :
    codeAt 2 0 (codes2 d1 d2) = d1.code ∧ codeAt 2 1 (codes2 d1 d2) = d2.code :=
  ⟨(codeAt_append_of_lt (by decide) _ _).trans (codeAt_single _), codeAt_append_last 1 _ _⟩

theorem codeAt_codes3 (d1 d2 d3 : Designator) :
    codeAt 3 0 (codes3 d1 d2 d3) = d1.code ∧ codeAt 3 1 (codes3 d1 d2 d3) = d2.code ∧
      codeAt 3 2 (codes3 d1 d2 d3) = d3.code := by
  obtain ⟨h1, h2⟩ := codeAt_codes2 d1 d2
  exact ⟨(codeAt_append_of_lt (by decide) _ _).trans h1, (codeAt_append_of_lt (by decide) _ _).trans h2,
    codeAt_append_last 2 _ _⟩

theorem codeAt_codes4 (d1 d2 d3 d4 : Designator) :
    codeAt 4 0 (codes4 d1 d2 d3 d4) = d1.code ∧ codeAt 4 1 (codes4 d1 d2 d3 d4) = d2.code ∧
      codeAt 4 2 (codes4 d1 d2 d3 d4) = d3.code ∧ codeAt 4 3 (codes4 d1 d2 d3 d4) = d4.code := by
  obtain ⟨h1, h2, h3⟩ := codeAt_codes3 d1 d2 d3
  exact ⟨(codeAt_append_of_lt (by decide) _ _).trans h1, (codeAt_append_of_lt (by decide) _ _).trans h2,
    (codeAt_append_of_lt (by decide) _ _).trans h3, codeAt_append_last 3 _ _⟩

/-! ### The codes of a bit string put together again -/

theorem codes1_codeAt (f1 : RegFile) (b : BitVec 6) : codes1 ⟨f1, codeAt 1 0 ⟨6, b⟩⟩ = ⟨6, b⟩ :=
  congrArg (BitString.mk 6) (codeAt_single b)

theorem codes2_codeAt (f1 f2 : RegFile) (b : BitVec 12) :
    codes2 ⟨f1, codeAt 2 0 ⟨12, b⟩⟩ ⟨f2, codeAt 2 1 ⟨12, b⟩⟩ = ⟨12, b⟩ := by
  refine congrArg (BitString.mk 12) ?_
  show b.extractLsb' 6 6 ++ b.extractLsb' 0 6 = b
  rw [BitVec.extractLsb'_append_extractLsb'_eq_extractLsb' (show 6 = 0 + 6 from rfl)]
  exact BitVec.extractLsb'_eq_self

theorem codes3_codeAt (f1 f2 f3 : RegFile) (b : BitVec 18) :
    codes3 ⟨f1, codeAt 3 0 ⟨18, b⟩⟩ ⟨f2, codeAt 3 1 ⟨18, b⟩⟩ ⟨f3, codeAt 3 2 ⟨18, b⟩⟩ = ⟨18, b⟩ := by
  refine congrArg (BitString.mk 18) ?_
  show b.extractLsb' 12 6 ++ b.extractLsb' 6 6 ++ b.extractLsb' 0 6 = b
  rw [BitVec.extractLsb'_append_extractLsb'_eq_extractLsb' (show 12 = 6 + 6 from rfl),
    BitVec.extractLsb'_append_extractLsb'_eq_extractLsb' (show 6 = 0 + 6 from rfl)]
  exact BitVec.extractLsb'_eq_self

theorem codes4_codeAt (f1 f2 f3 f4 : RegFile) (b : BitVec 24) :
    codes4 ⟨f1, codeAt 4 0 ⟨24, b⟩⟩ ⟨f2, codeAt 4 1 ⟨24, b⟩⟩ ⟨f3, codeAt 4 2 ⟨24, b⟩⟩ ⟨f4, codeAt 4 3 ⟨24, b⟩⟩ =
      ⟨24, b⟩ := by
  refine congrArg (BitString.mk 24) ?_
  show b.extractLsb' 18 6 ++ b.extractLsb' 12 6 ++ b.extractLsb' 6 6 ++ b.extractLsb' 0 6 = b
  rw [BitVec.extractLsb'_append_extractLsb'_eq_extractLsb' (show 18 = 12 + 6 from rfl),
    BitVec.extractLsb'_append_extractLsb'_eq_extractLsb' (show 12 = 6 + 6 from rfl),
    BitVec.extractLsb'_append_extractLsb'_eq_extractLsb' (show 6 = 0 + 6 from rfl)]
  exact BitVec.extractLsb'_eq_self

/-! ### The two directions -/

theorem ofLength_eq_ok_iff {n : Nat} {s : BitString} {i j : Instr} : ofLength n s i = .ok j ↔ s.length = n ∧ i = j := by
  unfold ofLength
  split <;> simp_all

/-- Settles O2: the bit string has each code in the place `decode` takes it from. -/
theorem decodeOfEncodeIsTheOperation : Obligations.DecodeOfEncodeIsTheOperation := by
  unfold Obligations.DecodeOfEncodeIsTheOperation
  intro i
  cases i with
  | read1 d1 => exact ofLength_eq_ok_iff.2 ⟨rfl, by simp only [encode, codes1, codeAt_single]⟩
  | read2 d1 d2 => exact ofLength_eq_ok_iff.2 ⟨rfl, by simp only [encode, codeAt_codes2]⟩
  | read3 d1 d2 d3 => exact ofLength_eq_ok_iff.2 ⟨rfl, by simp only [encode, codeAt_codes3]⟩
  | read4 d1 d2 d3 d4 => exact ofLength_eq_ok_iff.2 ⟨rfl, by simp only [encode, codeAt_codes4]⟩
  | write1 d1 v1 => exact ofLength_eq_ok_iff.2 ⟨rfl, by simp only [encode, codes1, codeAt_single]⟩
  | write2 d1 v1 d2 v2 => exact ofLength_eq_ok_iff.2 ⟨rfl, by simp only [encode, codeAt_codes2]⟩
  | write3 d1 v1 d2 v2 d3 v3 => exact ofLength_eq_ok_iff.2 ⟨rfl, by simp only [encode, codeAt_codes3]⟩
  | write4 d1 v1 d2 v2 d3 v3 d4 v4 => exact ofLength_eq_ok_iff.2 ⟨rfl, by simp only [encode, codeAt_codes4]⟩

/-- Settles O3: only one shape of files and values passes each mnemonic, and the codes of its bit string
put together again are the bit string. -/
theorem encodeOfDecodeIsTheDescriptor : Obligations.EncodeOfDecodeIsTheDescriptor := by
  unfold Obligations.EncodeOfDecodeIsTheDescriptor
  rintro ⟨mnemonic, files, ⟨n, b⟩, values⟩ i h
  unfold decode at h
  cases mnemonic
  all_goals
    simp only at h
    split at h
    · obtain ⟨rfl, rfl⟩ := ofLength_eq_ok_iff.1 h
      simp only [encode, codes1_codeAt, codes2_codeAt, codes3_codeAt, codes4_codeAt]
    · cases h
    · cases h

/-- Settles O4: a descriptor that decodes is the descriptor of an operation, and one whose parts fit has
its bit string, files and values where the operation takes them from. -/
theorem descriptorDecodesExactlyWhenItsPartsFit : Obligations.DescriptorDecodesExactlyWhenItsPartsFit := by
  unfold Obligations.DescriptorDecodesExactlyWhenItsPartsFit
  intro d
  constructor
  · rintro ⟨i, h⟩
    obtain rfl := encodeOfDecodeIsTheDescriptor d i h
    cases i <;> exact ⟨rfl, rfl, rfl⟩
  · obtain ⟨mnemonic, files, codes, values⟩ := d
    intro hparts
    match mnemonic, files, values, hparts with
    | .READ1, [_], [], ⟨hlen, _, _⟩ => exact ⟨_, ofLength_eq_ok_iff.2 ⟨hlen, rfl⟩⟩
    | .READ2, [_, _], [], ⟨hlen, _, _⟩ => exact ⟨_, ofLength_eq_ok_iff.2 ⟨hlen, rfl⟩⟩
    | .READ3, [_, _, _], [], ⟨hlen, _, _⟩ => exact ⟨_, ofLength_eq_ok_iff.2 ⟨hlen, rfl⟩⟩
    | .READ4, [_, _, _, _], [], ⟨hlen, _, _⟩ => exact ⟨_, ofLength_eq_ok_iff.2 ⟨hlen, rfl⟩⟩
    | .WRITE1, [_], [_], ⟨hlen, _, _⟩ => exact ⟨_, ofLength_eq_ok_iff.2 ⟨hlen, rfl⟩⟩
    | .WRITE2, [_, _], [_, _], ⟨hlen, _, _⟩ => exact ⟨_, ofLength_eq_ok_iff.2 ⟨hlen, rfl⟩⟩
    | .WRITE3, [_, _, _], [_, _, _], ⟨hlen, _, _⟩ => exact ⟨_, ofLength_eq_ok_iff.2 ⟨hlen, rfl⟩⟩
    | .WRITE4, [_, _, _, _], [_, _, _, _], ⟨hlen, _, _⟩ => exact ⟨_, ofLength_eq_ok_iff.2 ⟨hlen, rfl⟩⟩

/-- Settles O1: each of the eight is the descriptor of its operation. -/
theorem decodeWrittenOutDescriptors : Obligations.DecodeWrittenOutDescriptors := by
  unfold Obligations.DecodeWrittenOutDescriptors
  refine ⟨?_, ?_, ?_, ?_, ?_, ?_⟩
  · exact decodeOfEncodeIsTheOperation (.read1 ⟨.gpr, 10⟩)
  · exact decodeOfEncodeIsTheOperation (.read2 ⟨.gpr, 10⟩ ⟨.fpr, 17⟩)
  · exact decodeOfEncodeIsTheOperation (.read3 ⟨.gpr, 1⟩ ⟨.gpr, 2⟩ ⟨.gpr, 0⟩)
  · exact decodeOfEncodeIsTheOperation (.read4 ⟨.vr, 0⟩ ⟨.vr, 16⟩ ⟨.vr, 24⟩ ⟨.vr, 28⟩)
  · exact fun q => decodeOfEncodeIsTheOperation (.write1 ⟨.fpr, 33⟩ (.bits 128 q))
  · intro a b c d
    exact ⟨decodeOfEncodeIsTheOperation (.write2 ⟨.gpr, 2⟩ (.bits 64 a) ⟨.spr, 1⟩ (.bits 64 b)),
      decodeOfEncodeIsTheOperation (.write1 ⟨.spr, 4⟩ (.bits 64 a)),
      decodeOfEncodeIsTheOperation (.write4 ⟨.vr, 28⟩ (.bits 64 a) ⟨.vr, 29⟩ (.bits 64 b) ⟨.vr, 30⟩ (.bits 64 c)
        ⟨.vr, 31⟩ (.bits 64 d))⟩

end Sys2Proof

/-! PROOF. The names of the registers, their codes and widths, and which registers overlap (R25 to R28, R37,
R45, R51, R54, R69, R72). -/

namespace Sys2Proof

open Machine

/-! ### Names and codes -/

/-- The names of the GPRs in the order of their codes (R25 to R28). -/
def gprNames : List GprName :=
  [[.zero, .ra, .sp, .gp, .tp, .t 0, .t 1, .t 2, .s 0, .s 1, .a 0, .a 1, .a 2, .a 3, .a 4, .a 5],
    [.t 3, .t 4, .t 5, .t 6, .s 2, .s 3, .s 4, .s 5, .a 6, .a 7, .a 8, .a 9, .a 10, .a 11, .a 12, .a 13],
    (List.finRange 16).map .addr, (List.finRange 16).map .tmp].flatten

/-- The names of the SPRs in the order of their codes (R51). -/
def sprNames : List SprName :=
  [[.pc, .sp, .fp, .lr, .flags, .coreId, .threadId, .priority, .config, .features, .cacheCtrl, .powerCtrl],
    (List.finRange 4).map .reserved].flatten

theorem mem_gprNames (n : GprName) : n ∈ gprNames := by
  cases n with
  | zero | ra | sp | gp | tp => decide
  | t i | s i | a i | addr i | tmp i => revert i; decide

theorem mem_sprNames (n : SprName) : n ∈ sprNames := by
  cases n with
  | reserved i => revert i; decide
  | _ => decide

theorem gprNames_designators :
    gprNames.map (fun n => (RegName.gpr n).designator) = (List.range 64).map fun k => ⟨.gpr, BitVec.ofNat 6 k⟩ := by
  decide

theorem sprNames_designators :
    sprNames.map (fun n => (RegName.spr n).designator) = (List.range 16).map fun k => ⟨.spr, BitVec.ofNat 6 k⟩ := by
  decide

/-- A list of names that runs through the codes below n names each of them. -/
theorem exists_name_of_code {α : Type} {names : List α} {f : α → Designator} {file : RegFile} {n : Nat}
    (h : names.map f = (List.range n).map fun k => ⟨file, BitVec.ofNat 6 k⟩) {c : Code} (hc : c.toNat < n) :
    ∃ a, f a = ⟨file, c⟩ := by
  have hmem : (⟨file, c⟩ : Designator) ∈ names.map f := by
    rw [h]
    exact List.mem_map.2 ⟨c.toNat, List.mem_range.2 hc, by rw [BitVec.ofNat_toNat, BitVec.setWidth_eq]⟩
  obtain ⟨a, _, ha⟩ := List.mem_map.1 hmem
  exact ⟨a, ha⟩

/-- Settles O5: the two lists hold every name, and no code stands twice in the lists of their codes. -/
theorem everyGprAndSprHasOneName : Obligations.EveryGprAndSprHasOneName := by
  unfold Obligations.EveryGprAndSprHasOneName
  intro gprs sprs
  refine ⟨gprNames_designators, sprNames_designators, ?_, ?_, ?_, ?_⟩
  · exact fun c => exists_name_of_code gprNames_designators c.isLt
  · have hnodup : (gprNames.map fun n => (RegName.gpr n).designator).Nodup := gprNames_designators ▸ by decide
    exact fun n m => List.inj_on_of_nodup_map hnodup (mem_gprNames n) (mem_gprNames m)
  · exact fun c hc => exists_name_of_code sprNames_designators (Nat.lt_succ_of_le hc)
  · have hnodup : (sprNames.map fun n => (RegName.spr n).designator).Nodup := sprNames_designators ▸ by decide
    exact fun n m => List.inj_on_of_nodup_map hnodup (mem_sprNames n) (mem_sprNames m)

/-- Settles O7, a table of the 64 codes, code by code. -/
theorem codesAndWidthsOfTheFourFiles : Obligations.CodesAndWidthsOfTheFourFiles := by
  unfold Obligations.CodesAndWidthsOfTheFourFiles
  decide

/-! ### Overlap of two FPRs -/

/-- Two views of F, D and Q (group 0, 1, 2) have one cell exactly in one row, in one group or in a shared row. -/
theorem fprRowLoc_eq_iff {rows : FpAliasRows} {g g' : Nat} {i i' : Fin 16} (hg : g < 3) (hg' : g' < 3) :
    fprRowLoc rows g i = fprRowLoc rows g' i' ↔ i = i' ∧ (i.val < 8 ∨ rows = .rows16 ∨ g = g') := by
  unfold fprRowLoc
  by_cases hi : i.val < 8
  · grind
  · cases rows with
    | rows8 => grind
    | rows16 => grind

theorem fprLoc_of_ap {p : Params} {c : Code} (h : ¬ c.toNat < 48) :
    fprLoc p c = .ap ⟨c.toNat % 16, Nat.mod_lt _ (by decide)⟩ :=
  if_pos (by have := c.isLt; omega)

theorem fprLoc_of_row {p : Params} {c : Code} (h : c.toNat < 48) :
    fprLoc p c = fprRowLoc p.fpAliasRows (c.toNat / 16) ⟨c.toNat % 16, Nat.mod_lt _ (by decide)⟩ :=
  if_neg (by omega)

/-- An AP cell is the cell of an AP register alone. -/
theorem lt_48_iff_of_fprLoc_eq {p : Params} {c e : Code} (h : fprLoc p c = fprLoc p e) :
    c.toNat < 48 ↔ e.toNat < 48 := by
  have hap := congrArg (Option.isSome ∘ Loc.apIndex) h
  simp only [Function.comp_apply, fprLoc_apIndex] at hap
  grind

theorem fprLoc_eq_iff {p : Params} {c e : Code} : fprLoc p c = fprLoc p e ↔
    c = e ∨ (c.toNat < 48 ∧ e.toNat < 48 ∧ c.toNat % 16 = e.toNat % 16 ∧
      (c.toNat % 16 < 8 ∨ p.fpAliasRows = .rows16)) := by
  have hc := c.isLt
  have he := e.isLt
  rw [← BitVec.toNat_inj]
  by_cases hc48 : c.toNat < 48 <;> by_cases he48 : e.toNat < 48
  · rw [fprLoc_of_row hc48, fprLoc_of_row he48, fprRowLoc_eq_iff (by omega) (by omega), Fin.mk.injEq]
    grind
  · have hne : fprLoc p c ≠ fprLoc p e := fun h => he48 ((lt_48_iff_of_fprLoc_eq h).1 hc48)
    simp only [hne, false_iff]
    omega
  · have hne : fprLoc p c ≠ fprLoc p e := fun h => hc48 ((lt_48_iff_of_fprLoc_eq h).2 he48)
    simp only [hne, false_iff]
    omega
  · rw [fprLoc_of_ap hc48, fprLoc_of_ap he48, Loc.ap.injEq, Fin.mk.injEq]
    omega

/-- Settles O8: two FPRs overlap where they have one cell. -/
theorem fprsOverlapExactlyInARow : Obligations.FprsOverlapExactlyInARow := by
  unfold Obligations.FprsOverlapExactlyInARow
  intro p c e
  rw [← fprLoc_eq_iff, Designator.overlap_iff]
  simp [Designator.valid, Designator.loc, eq_comm]

/-! ### Overlap of two VRs -/

theorem vrLoc_eq_pv_iff {rows : VecAliasRows} {c : Code} {j : Fin 4} : vrLoc rows c = some (.pv j) ↔
    c.toNat = j.val ∨ c.toNat = 16 + j.val ∨ c.toNat = 24 + j.val ∨ c.toNat = 28 + j.val := by
  unfold vrLoc
  split_ifs <;> simp [Fin.ext_iff] <;> omega

theorem vrLoc_eq_vw_iff {rows : VecAliasRows} {c : Code} {j : Fin 12} :
    vrLoc rows c = some (.vw j) ↔ c.toNat = 4 + j.val := by
  unfold vrLoc
  split_ifs <;> simp [Fin.ext_iff] <;> omega

theorem vrLoc_eq_vh_iff {rows : VecAliasRows} {c : Code} {j : Fin 4} :
    vrLoc rows c = some (.vh j) ↔ c.toNat = 20 + j.val := by
  unfold vrLoc
  split_ifs <;> simp [Fin.ext_iff] <;> omega

theorem vrLoc_cases {rows : VecAliasRows} {c : Code} {l : Loc} (h : vrLoc rows c = some l) :
    (∃ j, l = .pv j) ∨ (∃ j, l = .vw j) ∨ ∃ j, l = .vh j := by
  unfold vrLoc at h
  grind

/-- Settles O9: a cell of the table of R45 has the four codes of its row, every other cell one code. -/
theorem vrsOverlapExactlyInARow : Obligations.VrsOverlapExactlyInARow := by
  unfold Obligations.VrsOverlapExactlyInARow
  intro p c e
  simp only [Designator.overlap_iff, Designator.valid, decide_eq_true_eq, Designator.loc]
  constructor
  · rintro ⟨hc, he, l, hcl, hel⟩
    rcases vrLoc_cases hcl with ⟨j, rfl⟩ | ⟨j, rfl⟩ | ⟨j, rfl⟩
    · exact .inr ⟨j, j.isLt, vrLoc_eq_pv_iff.1 hcl, vrLoc_eq_pv_iff.1 hel⟩
    · rw [vrLoc_eq_vw_iff] at hcl hel
      exact .inl ⟨by omega, BitVec.eq_of_toNat_eq (hcl.trans hel.symm)⟩
    · rw [vrLoc_eq_vh_iff] at hcl hel
      exact .inl ⟨by omega, BitVec.eq_of_toNat_eq (hcl.trans hel.symm)⟩
  · rintro (⟨hc, rfl⟩ | ⟨j, hj, hcj, hej⟩)
    · have hsome : (vrLoc p.vecAliasRows c).isSome = true := by
        unfold vrLoc
        grind
      obtain ⟨l, hl⟩ := Option.isSome_iff_exists.1 hsome
      exact ⟨by omega, by omega, l, hl, hl⟩
    · exact ⟨by omega, by omega, .pv ⟨j, hj⟩, vrLoc_eq_pv_iff.2 hcj, vrLoc_eq_pv_iff.2 hej⟩

/-! ### GPRs, SPRs and registers of two files -/

/-- The file whose registers have a cell; a GPR's cell may be an SPR's too (R54). -/
def Loc.file : Loc → RegFile
  | .g _ => .gpr
  | .pf _ | .fs _ | .fd _ | .fq _ | .ap _ => .fpr
  | .pv _ | .vw _ | .vh _ => .vr
  | .sp | .fp | .lr | .flags | .priority | .config | .spr _ => .spr

theorem gprLoc_eq_some_iff {c : Code} {l : Loc} :
    gprLoc c = some l ↔ ∃ i : Fin 63, c.toNat = i.val + 1 ∧ l = .g i := by
  have hc := c.isLt
  unfold gprLoc
  split
  · grind
  · constructor
    · rintro ⟨⟩
      exact ⟨⟨c.toNat - 1, by omega⟩, by grind⟩
    · grind

/-- An SPR has a GPR's cell exactly where `SPR_GPR_ALIAS` makes it one (R54). -/
theorem sprLoc_eq_g_iff {p : Params} {c : Code} {i : Fin 63} : sprLoc p c = .g i ↔
    p.sprGprAlias = .shared ∧ ((c = 1 ∧ i = 1) ∨ (c = 2 ∧ i = 7) ∨ (c = 3 ∧ i = 0)) := by
  have hcode {n : Nat} : c.toNat = n → c = BitVec.ofNat 6 n := by rintro rfl; simp
  unfold sprLoc
  cases p.sprGprAlias <;> split <;> grind

theorem Designator.file_of_loc {p : Params} {d : Designator} {l : Loc} (h : d.loc p = some l) :
    l.file = d.file ∨ (d.file = .spr ∧ l.file = .gpr) := by
  obtain ⟨file, c⟩ := d
  cases file with
  | gpr =>
    obtain ⟨i, _, rfl⟩ := gprLoc_eq_some_iff.1 h
    exact .inl rfl
  | fpr =>
    obtain rfl := Option.some.inj h
    left
    simp only [fprLoc, fprRowLoc]
    grind [Loc.file]
  | vr => rcases vrLoc_cases (rows := p.vecAliasRows) h with ⟨j, rfl⟩ | ⟨j, rfl⟩ | ⟨j, rfl⟩ <;> exact .inl rfl
  | spr =>
    obtain rfl := Option.some.inj h
    simp only [sprLoc]
    grind [Loc.file]

/-- Registers of two files have no cell in common, but for a GPR and an SPR (R72). -/
theorem overlap_eq_false_of_files {p : Params} {f g : RegFile} {c e : Code} (hne : f ≠ g)
    (h : (f ≠ .spr ∧ g ≠ .spr) ∨ (f ≠ .gpr ∧ g ≠ .gpr)) : Designator.overlap p ⟨f, c⟩ ⟨g, e⟩ = false := by
  rw [← Bool.not_eq_true, Designator.overlap_iff]
  rintro ⟨_, _, l, hd, he⟩
  have hdf := Designator.file_of_loc hd
  have hef := Designator.file_of_loc he
  grind

/-- The SPR code whose cell, or place, a cell is. -/
def Loc.sprCode : Loc → Code
  | .sp => 1
  | .fp => 2
  | .lr => 3
  | .flags => 4
  | .priority => 7
  | .config => 8
  | .spr c => c
  | .g i => if i = 1 then 1 else if i = 7 then 2 else 3
  | _ => 0

theorem sprCode_sprLoc (p : Params) (c : Code) : (sprLoc p c).sprCode = c := by
  have hcode {n : Nat} : c.toNat = n → BitVec.ofNat 6 n = c := by rintro rfl; simp
  unfold sprLoc
  split
  case h_1 hn | h_2 hn | h_3 hn => cases p.sprGprAlias <;> exact hcode hn
  case h_4 hn | h_5 hn | h_6 hn => exact hcode hn
  case h_7 => rfl

theorem sprLoc_inj {p : Params} {c e : Code} : sprLoc p c = sprLoc p e ↔ c = e :=
  ⟨fun h => by rw [← sprCode_sprLoc p c, h, sprCode_sprLoc], fun h => by rw [h]⟩

theorem overlap_gpr_iff {p : Params} {c e : Code} :
    Designator.overlap p ⟨.gpr, c⟩ ⟨.gpr, e⟩ = true ↔ c = e ∧ c ≠ 0#6 := by
  have hc := c.isLt
  simp only [Designator.overlap_iff, Designator.valid, Designator.loc, gprLoc_eq_some_iff, true_and]
  constructor
  · rintro ⟨l, ⟨i, hi, rfl⟩, j, hj, hij⟩
    obtain rfl := Loc.g.inj hij
    refine ⟨BitVec.eq_of_toNat_eq (hi.trans hj.symm), ?_⟩
    rintro rfl
    simp at hi
  · rintro ⟨rfl, h0⟩
    have hpos : c.toNat ≠ 0 := fun h => h0 (BitVec.eq_of_toNat_eq h)
    have hi : c.toNat = (⟨c.toNat - 1, by omega⟩ : Fin 63).val + 1 := by simp only; omega
    exact ⟨_, ⟨_, hi, rfl⟩, _, hi, rfl⟩

theorem overlap_spr_iff {p : Params} {c e : Code} :
    Designator.overlap p ⟨.spr, c⟩ ⟨.spr, e⟩ = true ↔ c = e ∧ c.toNat < 12 := by
  simp only [Designator.overlap_iff, Designator.valid, Designator.loc, decide_eq_true_eq]
  constructor
  · rintro ⟨hc, _, l, hcl, hel⟩
    exact ⟨sprLoc_inj.1 (Option.some.inj (hcl.trans hel.symm)), by omega⟩
  · rintro ⟨rfl, hc⟩
    exact ⟨by omega, by omega, _, rfl, rfl⟩

theorem overlap_spr_gpr_iff {p : Params} {c e : Code} :
    Designator.overlap p ⟨.spr, c⟩ ⟨.gpr, e⟩ = true ↔
      p.sprGprAlias = .shared ∧ ((c = 1#6 ∧ e = 2#6) ∨ (c = 3#6 ∧ e = 1#6) ∨ (c = 2#6 ∧ e = 8#6)) := by
  simp only [Designator.overlap_iff, Designator.valid, Designator.loc, decide_eq_true_eq, Option.some.injEq]
  constructor
  · rintro ⟨_, _, l, hcl, hel⟩
    obtain ⟨i, hi, rfl⟩ := gprLoc_eq_some_iff.1 hel
    obtain ⟨hp, hcases⟩ := sprLoc_eq_g_iff.1 hcl
    refine ⟨hp, ?_⟩
    rcases hcases with ⟨rfl, rfl⟩ | ⟨rfl, rfl⟩ | ⟨rfl, rfl⟩
    · exact .inl ⟨rfl, BitVec.eq_of_toNat_eq hi⟩
    · exact .inr (.inr ⟨rfl, BitVec.eq_of_toNat_eq hi⟩)
    · exact .inr (.inl ⟨rfl, BitVec.eq_of_toNat_eq hi⟩)
  · rintro ⟨hp, ⟨rfl, rfl⟩ | ⟨rfl, rfl⟩ | ⟨rfl, rfl⟩⟩ <;> refine ⟨by decide, trivial, ?_⟩
    · exact ⟨.g 1, sprLoc_eq_g_iff.2 ⟨hp, by decide⟩, rfl⟩
    · exact ⟨.g 0, sprLoc_eq_g_iff.2 ⟨hp, by decide⟩, rfl⟩
    · exact ⟨.g 7, sprLoc_eq_g_iff.2 ⟨hp, by decide⟩, rfl⟩

/-- Settles O10: which cells the registers of two files have in common. -/
theorem gprsAndSprsOverlapOnlyAsAliased : Obligations.GprsAndSprsOverlapOnlyAsAliased := by
  unfold Obligations.GprsAndSprsOverlapOnlyAsAliased
  intro p c e
  refine ⟨overlap_gpr_iff, overlap_spr_iff, overlap_spr_gpr_iff, ?_, ?_, ?_, ?_, ?_, Designator.overlap_comm p⟩ <;>
    exact overlap_eq_false_of_files (by decide) (by decide)

end Sys2Proof

/-! PROOF. The step and the program (R15, R109, R114, R135, R172), and what an operation that completes, faults
or is refused did (R120, R130, R141). -/

namespace Sys2Proof.Machine

/-! ### What a step does with the next line -/

theorem step_of_unresolved {s : State} {l : ProgramLine} {rest : List ProgramLine} (hp : s.program = l :: rest)
    (hl : l.resolve s.results = none) : step s = .refused .unresolvedValue := by
  simp only [step, State.fetch, hp, fetchLine, hl]

theorem step_of_undecodable {s : State} {l : ProgramLine} {rest : List ProgramLine} {d : Descriptor} {e : DecodeError}
    (hp : s.program = l :: rest) (hl : l.resolve s.results = some d) (hd : decode d = .error e) :
    step s = .refused (.undecodable e) := by
  simp only [step, State.fetch, hp, fetchLine, hl, hd]

theorem step_of_operation {s : State} {l : ProgramLine} {rest : List ProgramLine} {d : Descriptor} {i : Instr}
    (hp : s.program = l :: rest) (hl : l.resolve s.results = some d) (hd : decode d = .ok i) :
    step s = exec i (s.withProgram rest) := by
  simp only [step, State.fetch, hp, fetchLine, hl, hd]

/-- Settles O12: the next line is the operation that `decode` makes of it. -/
theorem stepRunsTheNextOperation : Obligations.StepRunsTheNextOperation := by
  unfold Obligations.StepRunsTheNextOperation
  intro s l rest d i hp hl hd
  exact step_of_operation hp hl hd

/-- Settles O13: the program has no line to fetch. -/
theorem stepAtTheEndOfTheProgramStays : Obligations.StepAtTheEndOfTheProgramStays := by
  unfold Obligations.StepAtTheEndOfTheProgramStays
  intro s hp
  simp only [step, State.fetch, hp]

/-! ### The value of an operand (R114) -/

theorem resolve_result_succ (rs : List (List Value)) (k j : Nat) :
    (ValueExpr.result (k + 1) (j + 1)).resolve rs = (rs[k]?).bind fun r => r[j]? := rfl

theorem resolve_result_eq_none {rs : List (List Value)} {k j : Nat}
    (h : k = 0 ∨ j = 0 ∨ rs.length < k ∨ ∀ r, rs[k - 1]? = some r → r.length < j) :
    (ValueExpr.result k j).resolve rs = none := by
  cases k with
  | zero => rfl
  | succ k =>
    cases j with
    | zero => rfl
    | succ j =>
      rw [resolve_result_succ]
      rcases h with h | h | h | h
      · omega
      · omega
      · rw [List.getElem?_eq_none (Nat.le_of_lt_succ h), Option.bind_none]
      · exact Option.bind_eq_none_iff.2 fun r hr => List.getElem?_eq_none (Nat.le_of_lt_succ (h r hr))

theorem resolveAll_eq_some_iff {rs : List (List Value)} {es : List ValueExpr} {vs : List Value} :
    resolveAll rs es = some vs ↔ es.map (ValueExpr.resolve rs) = vs.map some := by
  induction es generalizing vs with
  | nil => cases vs <;> simp [resolveAll]
  | cons e es ih => cases vs <;> simp [resolveAll, Option.bind_eq_some_iff, ← ih]

theorem ProgramLine.resolve_eq_some_iff {rs : List (List Value)} {l : ProgramLine} {d : Descriptor} :
    l.resolve rs = some d ↔ d.mnemonic = l.mnemonic ∧ d.files = l.files ∧ d.codes = l.codes ∧
      l.values.map (ValueExpr.resolve rs) = d.values.map some := by
  obtain ⟨mnemonic, files, codes, values⟩ := d
  simp only [ProgramLine.resolve, Option.map_eq_some_iff, Descriptor.mk.injEq, ← resolveAll_eq_some_iff]
  grind

/-- Settles O14: the refusals from the lines of `fetchLine`, the values from those of `ValueExpr.resolve`. -/
theorem stepRefusesALineThatIsNoOperation : Obligations.StepRefusesALineThatIsNoOperation := by
  unfold Obligations.StepRefusesALineThatIsNoOperation
  refine ⟨?_, ?_, ?_, ?_, ?_⟩
  · exact fun s l rest hp => ⟨step_of_unresolved hp, fun d e => step_of_undecodable hp⟩
  · intro before after x y v
    simp [resolve_result_succ]
  · exact fun rs k j => resolve_result_eq_none
  · exact fun rs v => rfl
  · exact fun rs l d => ProgramLine.resolve_eq_some_iff

theorem Descriptor.line_resolve (d : Descriptor) (rs : List (List Value)) : d.line.resolve rs = some d := by
  simp [ProgramLine.resolve, Descriptor.line, resolveAll_literal]

/-- Settles O15: a descriptor placed as the next line stands for itself. -/
theorem aFetchedTableWordRunsNext : Obligations.AFetchedTableWordRunsNext := by
  unfold Obligations.AFetchedTableWordRunsNext
  intro s nbits w i h
  have hd : decode (tableDescriptor nbits w) = .ok i := by
    unfold decodeTableWord at h
    split at h
    · next hok => rw [hok, Option.some.inj h]
    · cases h
  exact step_of_operation (s := s.withFetchWord nbits w) rfl (Descriptor.line_resolve _ _) hd

/-! ### The outcomes of an operation -/

theorem exec_of_reads {i : Instr} (hw : i.writes = []) (s : State) : exec i s = readPattern i.designators s := by
  rcases exec_eq_pattern i s with ⟨_, he⟩ | ⟨hw', _⟩
  · exact he
  · exact absurd hw hw'

theorem exec_of_writes {i : Instr} (hw : i.writes ≠ []) (s : State) : exec i s = writePattern i.writes s := by
  rcases exec_eq_pattern i s with ⟨hw', _⟩ | ⟨_, _, he⟩
  · exact absurd hw' hw
  · exact he

/-- All an operation to a next state can have done: READ its designators, or WRITE its pairs (R120, R130). -/
theorem exec_next_cases {i : Instr} {s t : State} (h : exec i s = .next t) :
    (i.writes = [] ∧ t = (s.logResults (s.readAll i.designators s.draws)).advanceDraws i.designators.length) ∨
      (i.writes ≠ [] ∧ i.writes.map Prod.fst = i.designators ∧ writePattern i.writes s = .next t ∧
        t = (s.writeAll i.writes).logResults []) := by
  rcases exec_eq_pattern i s with ⟨hw, he⟩ | ⟨hw, hd, he⟩
  · obtain ⟨_, _, ht⟩ := (readPattern_next_iff _ _ _).1 (he ▸ h)
    exact .inl ⟨hw, ht⟩
  · obtain ⟨_, _, _, _, ht⟩ := (writePattern_next_iff _ _ _).1 (he ▸ h)
    exact .inr ⟨hw, hd, he ▸ h, ht⟩

/-- What no operation changes, and the one list of results it adds. -/
theorem exec_next_frame {i : Instr} {s t : State} (h : exec i s = .next t) :
    t.params = s.params ∧ t.program = s.program ∧ ∃ r, t.results = s.results ++ [r] ∧
      r.length = if i.writes = [] then i.designators.length else 0 := by
  rcases exec_next_cases h with ⟨hw, rfl⟩ | ⟨hw, _, _, rfl⟩
  · exact ⟨rfl, rfl, _, rfl, by rw [State.readAll_length, if_pos hw]⟩
  · exact ⟨by simp, by simp, [], by simp, by rw [if_neg hw]; rfl⟩

/-- Settles O16, from what an operation does to the program and the results. -/
theorem aStepAddsOneListOfResults : Obligations.AStepAddsOneListOfResults := by
  unfold Obligations.AStepAddsOneListOfResults
  intro s t l rest hp h
  rcases step_next_cases h with ⟨hnil, _⟩ | ⟨l', rest', d, i, hp', hl, hd, he⟩
  · exact absurd (hp.symm.trans hnil) (List.cons_ne_nil _ _)
  · obtain ⟨rfl, rfl⟩ := List.cons.inj (hp.symm.trans hp')
    obtain ⟨_, hprogram, r, hresults, hlen⟩ := exec_next_frame he
    exact ⟨hprogram, i, r, hresults, hlen, d, hl, hd⟩

/-- Settles O54: a step runs an operation or stays. -/
theorem noStepChangesAParameter : Obligations.NoStepChangesAParameter := by
  unfold Obligations.NoStepChangesAParameter
  intro s t h
  rcases step_next_cases h with ⟨_, rfl⟩ | ⟨_, _, _, _, _, _, _, he⟩
  · rfl
  · exact (exec_next_frame he).1

/-! ### Faults -/

theorem readPattern_fault_iff {ds : List Designator} {s : State} {r : Fault} :
    readPattern ds s = .fault r ↔ r = .unspecifiedRead ∧ s.params.unspecifiedRead = .fault ∧
      ds.all Designator.valid = true ∧ ds.all s.specified = false := by
  unfold readPattern
  split
  · next hv => simp [hv]
  · next hv =>
    split
    · next hs => simp [hs, Bool.eq_true_of_not_eq_false hv]
    · next hs => simp only [reduceCtorEq, false_iff]; exact fun ⟨_, hp, _, hu⟩ => hs ⟨hp, hu⟩

/-- Settles O56: only a READ has a stage that faults. -/
theorem onlyAReadOfAnUnspecifiedBitFaults : Obligations.OnlyAReadOfAnUnspecifiedBitFaults := by
  unfold Obligations.OnlyAReadOfAnUnspecifiedBitFaults
  intro s i r
  rcases exec_eq_pattern i s with ⟨hw, he⟩ | ⟨hw, _, he⟩
  · rw [he, readPattern_fault_iff]
    simp [hw]
  · simp [he, hw, writePattern_ne_fault]

theorem step_fault_cases {s : State} {r : Fault} (h : step s = .fault r) :
    ∃ i rest, exec i (s.withProgram rest) = .fault r := by
  unfold step at h
  split at h
  · cases h
  · cases h
  · exact ⟨_, _, h⟩

/-- Settles O55: the operation that faulted would be a READ on a machine that faults on a bit. -/
theorem aDrawingMachineNeverFaults : Obligations.ADrawingMachineNeverFaults := by
  unfold Obligations.ADrawingMachineNeverFaults
  intro s hp r h
  obtain ⟨i, rest, he⟩ := step_fault_cases h
  obtain ⟨_, _, hfault, _⟩ := (onlyAReadOfAnUnspecifiedBitFaults (s.withProgram rest) i r).1 he
  exact absurd (hp.symm.trans hfault) (by decide)

/-! ### Refusals -/

theorem readPattern_refused_iff {ds : List Designator} {s : State} {r : Refusal} :
    readPattern ds s = .refused r ↔ r = .reservedSpecifier ∧ ds.all Designator.valid = false := by
  unfold readPattern
  split
  · next hv => simp [hv, eq_comm (a := r)]
  · next hv => split <;> simp [hv]

/-- Why a WRITE is refused: its stages in order (R130). -/
theorem writePattern_refused_cases {ws : List (Designator × Value)} {s : State} {r : Refusal}
    (h : writePattern ws s = .refused r) :
    (r = .reservedSpecifier ∧ (ws.all fun w => w.1.valid) = false) ∨ r = .widthMismatch ∨ r = .writeConflict ∨
      r = .unmodelledWrite ∨ r = .reservedFieldWrite := by
  unfold writePattern at h
  split at h
  · next hv => exact .inl ⟨(Host.Outcome.refused.inj h).symm, hv⟩
  · split at h
    · exact .inr (.inl (Host.Outcome.refused.inj h).symm)
    · split at h
      · exact .inr (.inr (.inl (Host.Outcome.refused.inj h).symm))
      · split at h
        · next hr =>
          obtain rfl := Host.Outcome.refused.inj h
          obtain ⟨w, _, hw⟩ := List.exists_of_findSome?_eq_some hr
          exact .inr (.inr (.inr (writeRefusal_cases hw)))
        · cases h

/-- Settles O57: stage 1 comes first in both patterns, and only a WRITE has more stages that refuse. -/
theorem operationsAreRefusedForTheNamedReasonsOnly : Obligations.OperationsAreRefusedForTheNamedReasonsOnly := by
  unfold Obligations.OperationsAreRefusedForTheNamedReasonsOnly
  intro s i
  rcases exec_eq_pattern i s with ⟨hw, he⟩ | ⟨hw, hd, he⟩
  · rw [he, readPattern_refused_iff]
    refine ⟨by simp [Instr.designatorsValid], fun r hr => .inl (readPattern_refused_iff.1 hr).1⟩
  · have hvalid : i.designatorsValid = i.writes.all fun w => w.1.valid := by
      rw [Instr.designatorsValid, ← hd, List.all_map]; rfl
    rw [he, hvalid]
    refine ⟨⟨writePattern_of_invalid, fun hr => ?_⟩, fun r hr => ?_⟩
    · rcases writePattern_refused_cases hr with ⟨_, hv⟩ | h | h | h | h
      · exact hv
      all_goals cases h
    · rcases writePattern_refused_cases hr with ⟨h, _⟩ | h
      · exact .inl h
      · exact .inr ⟨hw, h⟩

end Sys2Proof.Machine

/-! PROOF. What a READ returns (R29, R37 to R46, R53 to R67, R70, R73). -/

namespace Sys2Proof.Machine

/-! ### READs as a whole -/

/-- Stage 3 of R120 on a machine that draws for an unspecified bit. -/
theorem readPattern_of_drawing {ds : List Designator} {s : State} (hp : s.params.unspecifiedRead = .draw)
    (hv : ds.all Designator.valid = true) :
    readPattern ds s = .next ((s.logResults (s.readAll ds s.draws)).advanceDraws ds.length) :=
  (readPattern_next_iff ds s _).2 ⟨hv, fun hf => absurd (hp.symm.trans hf) (by decide), rfl⟩

/-- Settles O21: a machine that draws has no stage 2. -/
theorem readsCompleteWhereUnspecifiedBitsAreDrawn : Obligations.ReadsCompleteWhereUnspecifiedBitsAreDrawn := by
  unfold Obligations.ReadsCompleteWhereUnspecifiedBitsAreDrawn
  intro s d1 d2 d3 d4 hp
  refine ⟨fun hv => ?_, fun hv => ?_, fun hv => ?_, fun hv => ?_⟩
  all_goals exact readPattern_of_drawing hp (by simpa [and_assoc] using hv)

/-- Settles O22, from the state a READ leads to. -/
theorem readsChangeNoRegister : Obligations.ReadsChangeNoRegister := by
  unfold Obligations.ReadsChangeNoRegister
  intro s t i hw h
  rcases exec_next_cases h with ⟨_, rfl⟩ | ⟨hw', _⟩
  · exact ⟨fun l => by simp, rfl, rfl, rfl, rfl⟩
  · exact absurd hw hw'

/-! ### A view whose bits have a value -/

theorem Loc.width_le_512 (l : Loc) : l.width ≤ 512 := by
  cases l <;> simp [Loc.width]

theorem setWidth_allOnes_of_le {n w : Nat} (h : w ≤ n) : (BitVec.allOnes n).setWidth w = BitVec.allOnes w := by
  apply BitVec.eq_of_getLsbD_eq
  intro i hi
  simp only [BitVec.getLsbD_setWidth, BitVec.getLsbD_allOnes, hi, Nat.lt_of_lt_of_le hi h, decide_true,
    Bool.and_self]

/-- A view that is its cell's low-order bits, all of which have a value, is read as those bits. -/
theorem exec_read1_of_known {s : State} {d : Designator} {l : Loc} {n w : Nat} {v k : BitVec n}
    (hv : d.valid = true) (hl : d.loc s.params = some l) (hw : d.width = .bits w) (hn : l.width = n) (hle : w ≤ n)
    (ha : l.apIndex = none) (hview : s.viewAt l = s.cellAt l) (hcell : s.cellAt l = Cell.widen ⟨v, k⟩)
    (hk : k.setWidth w = BitVec.allOnes w) :
    exec (.read1 d) s = .next ((s.logResults [.bits w (v.setWidth w)]).advanceDraws 1) := by
  obtain ⟨hspec, hval⟩ := Cell.widen_low v k w hle (hn ▸ Loc.width_le_512 l) hk
  exact exec_read1_of_cell hv hl hw (hn ▸ hle) hview ha (hcell ▸ hspec) (hcell ▸ hval)

/-- A view that is the whole of its cell, every bit of which has a value, is read as the cell. -/
theorem exec_read1_of_whole {s : State} {d : Designator} {l : Loc} {n : Nat} {v : BitVec n}
    (hv : d.valid = true) (hl : d.loc s.params = some l) (hw : d.width = .bits n) (hn : l.width = n)
    (ha : l.apIndex = none) (hview : s.viewAt l = s.cellAt l)
    (hcell : s.cellAt l = Cell.widen ⟨v, BitVec.allOnes n⟩) :
    exec (.read1 d) s = .next ((s.logResults [.bits n v]).advanceDraws 1) := by
  have h := exec_read1_of_known hv hl hw hn (Nat.le_refl n) ha hview hcell (BitVec.setWidth_eq _)
  rwa [BitVec.setWidth_eq] at h

theorem Cell.resolve_widen {n : Nat} (v k : BitVec n) (free : Wide) (hn : n ≤ 512) :
    ((Cell.widen ⟨v, k⟩).resolve free).setWidth n = (v &&& k) ||| (free.setWidth n &&& ~~~k) := by
  apply BitVec.eq_of_getLsbD_eq
  intro i hi
  have h512 : i < 512 := by omega
  simp only [BitVec.getLsbD_setWidth, Cell.resolve_getLsbD, Cell.widen_val, Cell.widen_known, BitVec.getLsbD_or,
    BitVec.getLsbD_and, BitVec.getLsbD_not, hi, h512, decide_true, Bool.true_and]
  cases k.getLsbD i <;> simp

/-! ### GPRs, FPRs and VRs -/

/-- Settles O23: R0 is a constant, and every other GPR the whole of its cell. -/
theorem readingAGprReturnsItsCell : Obligations.ReadingAGprReturnsItsCell := by
  unfold Obligations.ReadingAGprReturnsItsCell
  intro s c
  refine ⟨?_, ?_, ?_⟩
  · rintro rfl
    exact exec_read1_r0 s
  · intro i v hc hcell
    exact exec_read1_of_whole rfl (loc_gpr s.params c i hc) rfl rfl rfl rfl (congrArg Cell.widen hcell)
  · intro i v k hc hcell hp
    have hview : s.viewAt (.g i) = Cell.widen ⟨v, k⟩ := congrArg Cell.widen hcell
    rw [exec_read1_of_valid rfl (.inl hp), State.regRead_eq_resolve (w := 64) _ (loc_gpr s.params c i hc) rfl, hview,
      Cell.resolve_widen v k _ (by decide)]

/-- Settles O24: the three views of `PF[i]`. -/
theorem readingASharedFprReturnsTheLowBits : Obligations.ReadingASharedFprReturnsTheLowBits := by
  unfold Obligations.ReadingASharedFprReturnsTheLowBits
  intro s i v k hcell
  have hat : s.cellAt (.pf i) = Cell.widen ⟨v, k⟩ := congrArg Cell.widen hcell
  refine ⟨fun hk => ?_, fun hk => ?_, ?_⟩
  · exact exec_read1_of_known rfl (loc_f s.params i _) (width_f ⟨i, by omega⟩) rfl (by decide) rfl rfl hat hk
  · exact exec_read1_of_known rfl (loc_d s.params i _) (width_d _) rfl (by decide) rfl rfl hat hk
  · rintro rfl
    exact exec_read1_of_whole rfl (loc_q s.params i _) (width_q _) rfl rfl rfl hat

/-- Settles O25: the cells of rows 8 to 15 under either parameter. -/
theorem readingAnUpperFprRowFollowsTheAliasParameter : Obligations.ReadingAnUpperFprRowFollowsTheAliasParameter := by
  unfold Obligations.ReadingAnUpperFprRowFollowsTheAliasParameter
  intro s i
  have hf := loc_f_upper s.params i (by omega)
  have hd := loc_d_upper s.params i (by omega)
  have hq := loc_q_upper s.params i (by omega)
  have hwf := width_f ⟨8 + i.val, by omega⟩
  refine ⟨fun hp => ⟨?_, ?_, ?_⟩, fun hp v hcell => ?_⟩
  · rw [hp] at hf
    exact fun v hcell => exec_read1_of_whole rfl hf hwf rfl rfl rfl (congrArg Cell.widen hcell)
  · rw [hp] at hd
    exact fun v hcell => exec_read1_of_whole rfl hd (width_d _) rfl rfl rfl (congrArg Cell.widen hcell)
  · exact fun v hcell => exec_read1_of_whole rfl hq (width_q _) rfl rfl rfl (congrArg Cell.widen hcell)
  · rw [hp] at hf hd
    have hat : s.cellAt (.fq i) = Cell.widen ⟨v, BitVec.allOnes 128⟩ := congrArg Cell.widen hcell
    refine ⟨?_, ?_, ?_⟩
    · exact exec_read1_of_known rfl hf hwf rfl (by decide) rfl rfl hat (setWidth_allOnes_of_le (by decide))
    · exact exec_read1_of_known rfl hd (width_d _) rfl (by decide) rfl rfl hat (setWidth_allOnes_of_le (by decide))
    · exact exec_read1_of_whole rfl hq (width_q _) rfl rfl rfl hat

theorem State.specified_ap (s : State) (i : Fin 16) : s.specified (RegName.ap i).designator = s.ap[i].written := by
  simp only [State.specified_of_loc (loc_ap s.params i), State.specifiedAt, Loc.apIndex]

theorem State.regRead_ap (s : State) (i : Fin 16) (k : Nat) :
    s.regRead (RegName.ap i).designator k = .ap (if s.ap[i].written then s.ap[i].val else Config.freeAp k) := by
  simp only [State.regRead, loc_ap, Option.bind_some, Loc.apIndex, State.apRead]

/-- Settles O26: an AP cell is read whole, or as the draw of its operand. -/
theorem readingAnApRegisterReturnsTheLastValueStored : Obligations.ReadingAnApRegisterReturnsTheLastValueStored := by
  unfold Obligations.ReadingAnApRegisterReturnsTheLastValueStored
  intro s i
  have hs := s.specified_ap i
  have hread := s.regRead_ap i
  refine ⟨fun hw => ?_, fun hw hp => ?_, fun hw hp => ⟨?_, ?_⟩⟩
  · rw [exec_read1_of_valid rfl (.inr (hs.trans hw)), hread, hw, if_pos rfl]
  · exact exec_read1_of_unspecified rfl hp (hs.trans hw)
  · rw [exec_read1_of_valid rfl (.inl hp), hread, hw, if_neg (by decide)]
  · have hnext := readPattern_of_drawing (ds := [(RegName.ap i).designator, (RegName.ap i).designator]) hp rfl
    simp only [State.readAll, hread, hw, Bool.false_eq_true, if_false] at hnext
    exact hnext

/-- Settles O27: the four views of `PV[j]`. -/
theorem readingASharedVrReturnsTheLowBits : Obligations.ReadingASharedVrReturnsTheLowBits := by
  unfold Obligations.ReadingASharedVrReturnsTheLowBits
  intro s j v k hcell
  have hat : s.cellAt (.pv j) = Cell.widen ⟨v, k⟩ := congrArg Cell.widen hcell
  obtain ⟨h512, h256, h128, h64, _⟩ := loc_v s.params j
  refine ⟨?_, fun hk => ?_, fun hk => ?_, fun hk => ?_⟩
  · rintro rfl
    exact exec_read1_of_whole (valid_v _) h512 (width_v512 ⟨j, by omega⟩) rfl rfl rfl hat
  · exact exec_read1_of_known (valid_v _) h256 (width_v256 ⟨j, by omega⟩) rfl (by decide) rfl rfl hat hk
  · exact exec_read1_of_known (valid_v _) h128 (width_v128 j) rfl (by decide) rfl rfl hat hk
  · exact exec_read1_of_known (valid_v _) h64 (width_v64 j) rfl (by decide) rfl rfl hat hk

theorem width_vh (j : Fin 4) : (RegName.v ⟨20 + j.val, by omega⟩).designator.width = .bits 256 := by
  fin_cases j <;> rfl

/-- Settles O28: each of these registers is the whole of its cell. -/
theorem readingAnUnsharedVrReturnsItsCell : Obligations.ReadingAnUnsharedVrReturnsItsCell := by
  unfold Obligations.ReadingAnUnsharedVrReturnsItsCell
  intro s
  refine ⟨fun j v hcell => ?_, fun j v hcell => ?_⟩
  · exact exec_read1_of_whole (valid_v _) (loc_vw s.params j) (width_v512 ⟨4 + j.val, by omega⟩) rfl rfl rfl
      (congrArg Cell.widen hcell)
  · obtain ⟨_, _, _, _, hvh⟩ := loc_v s.params j
    exact exec_read1_of_whole (valid_v _) hvh (width_vh j) rfl rfl rfl
      (congrArg Cell.widen hcell)

/-! ### SPRs -/

/-- The cells of SP, FP and LR where they are registers of their own (R54). -/
theorem loc_spr_of_separate {p : Params} (h : p.sprGprAlias = .separate) :
    (RegName.spr .sp).designator.loc p = some .sp ∧ (RegName.spr .fp).designator.loc p = some .fp ∧
      (RegName.spr .lr).designator.loc p = some .lr := by
  simp [RegName.designator, SprName.number, Designator.loc, sprLoc, h]

/-- The GPRs that SP, FP and LR are where `SPR_GPR_ALIAS` says so (R54). -/
theorem loc_spr_of_shared {p : Params} (h : p.sprGprAlias = .shared) :
    (RegName.spr .sp).designator.loc p = (RegName.r 2).designator.loc p ∧
      (RegName.spr .fp).designator.loc p = (RegName.r 8).designator.loc p ∧
      (RegName.spr .lr).designator.loc p = (RegName.r 1).designator.loc p := by
  simp [RegName.designator, SprName.number, Designator.loc, sprLoc, gprLoc, h]

/-- Settles O29: the cell of an SPR is its own, or the one of the GPR it names. -/
theorem readingAStoredSprReturnsItsCell : Obligations.ReadingAStoredSprReturnsItsCell := by
  unfold Obligations.ReadingAStoredSprReturnsItsCell
  intro s
  refine ⟨fun hp => ?_, fun hp => ?_, fun v hcell => ?_⟩
  · obtain ⟨hsp, hfp, hlr⟩ := loc_spr_of_separate hp
    refine ⟨fun v hcell => ?_, fun v hcell => ?_, fun v hcell => ?_⟩
    · exact exec_read1_of_whole rfl hsp rfl rfl rfl rfl (congrArg Cell.widen hcell)
    · exact exec_read1_of_whole rfl hfp rfl rfl rfl rfl (congrArg Cell.widen hcell)
    · exact exec_read1_of_whole rfl hlr rfl rfl rfl rfl (congrArg Cell.widen hcell)
  · obtain ⟨hsp, hfp, hlr⟩ := loc_spr_of_shared hp
    exact ⟨exec_read1_congr rfl hsp rfl, exec_read1_congr rfl hfp rfl, exec_read1_congr rfl hlr rfl⟩
  · exact exec_read1_of_whole (l := .priority) rfl rfl rfl rfl rfl rfl (congrArg Cell.widen hcell)

/-- An SPR without storage has no bit that could be unspecified (R67, R73). -/
theorem State.specified_of_unstored {s : State} {d : Designator} {c : Code} (hl : d.loc s.params = some (.spr c)) :
    s.specified d = true := by
  rw [State.specified_of_loc hl]
  exact (Cell.specifiedBelow_iff _ _).2 fun i _ hi => absurd hi (by simp [Loc.width])

/-- An SPR that is a parameter is read as it in every state (R67). -/
theorem exec_read1_of_parameter {s : State} {d : Designator} {c : Code} {w : Nat} {v : BitVec w}
    (hv : d.valid = true) (hl : d.loc s.params = some (.spr c)) (hw : d.width = .bits w)
    (hview : s.sprView c = Cell.store v) (h512 : w ≤ 512) :
    exec (.read1 d) s = .next ((s.logResults [.bits w v]).advanceDraws 1) := by
  have hat : s.viewAt (.spr c) = Cell.store v := hview
  refine exec_read1_of_view hv hl hw (State.specified_of_unstored hl) ?_ ?_
  · rw [hat, Cell.store_specifiedBelow v (Nat.le_refl w)]
  · rw [hat, Cell.store_val, BitVec.setWidth_setWidth_of_le _ h512, BitVec.setWidth_eq]

/-- Settles O30: a parameter is read as a value stored whole. -/
theorem readingAnIdentificationSprReturnsItsParameter : Obligations.ReadingAnIdentificationSprReturnsItsParameter := by
  unfold Obligations.ReadingAnIdentificationSprReturnsItsParameter
  intro s
  refine ⟨exec_read1_pc s, ?_, ?_, ?_, rfl, rfl, rfl, rfl, rfl, rfl, rfl, rfl, rfl, rfl, rfl, rfl⟩
  · exact exec_read1_of_parameter (c := 5) rfl rfl rfl rfl (by decide)
  · exact exec_read1_of_parameter (c := 6) rfl rfl rfl rfl (by decide)
  · exact exec_read1_of_parameter (c := 9) rfl rfl rfl rfl (by decide)

/-- A cell of n bits that all have a value is read with the draw above them. -/
theorem Cell.resolve_widen_above {n m : Nat} (v : BitVec n) (free : Wide) (h : m + n ≤ 512) :
    ((Cell.widen ⟨v, BitVec.allOnes n⟩).resolve free).setWidth (m + n) = free.extractLsb' n m ++ v := by
  apply BitVec.eq_of_getLsbD_eq
  intro i hi
  have h512 : i < 512 := by omega
  simp only [BitVec.getLsbD_setWidth, Cell.resolve_getLsbD, Cell.widen_val, Cell.widen_known, BitVec.getLsbD_allOnes,
    BitVec.getLsbD_append, BitVec.getLsbD_extractLsb', hi, h512, decide_true, Bool.true_and, decide_eq_true_eq]
  split
  · rfl
  · rw [decide_eq_true (by omega), Bool.true_and, show n + (i - n) = i by omega]

theorem State.regRead_flags {s : State} {v : BitVec 16} (h : s.flags = ⟨v, BitVec.allOnes 16⟩) (k : Nat) :
    s.regRead (RegName.spr .flags).designator k = .bits 64 ((Config.freeBits k).extractLsb' 16 48 ++ v) := by
  have hview : s.viewAt .flags = Cell.widen ⟨v, BitVec.allOnes 16⟩ := congrArg Cell.widen h
  rw [State.regRead_eq_resolve (l := .flags) (w := 48 + 16) k rfl rfl, hview, Cell.resolve_widen_above v _ (by decide)]

theorem State.regRead_config {s : State} {v : BitVec 8} (h : s.config = ⟨v, BitVec.allOnes 8⟩) (k : Nat) :
    s.regRead (RegName.spr .config).designator k =
      .bits 64 (configUpper s.params ++ (Config.freeBits k).extractLsb' 8 8 ++ v) := by
  rw [State.regRead_eq_resolve (l := .config) (w := 64) k rfl rfl]
  refine congrArg (Value.bits 64) (BitVec.eq_of_getLsbD_eq fun i hi => ?_)
  have h512 : i < 512 := by omega
  simp only [State.viewAt, State.configView, h, BitVec.getLsbD_setWidth, Cell.resolve_getLsbD, BitVec.getLsbD_allOnes,
    BitVec.getLsbD_append, BitVec.getLsbD_extractLsb', BitVec.getLsbD_zero, hi, h512, decide_true, Bool.true_and]
  by_cases h8 : i < 8
  · simp only [h8, decide_true, if_true]
  by_cases h16 : i < 16
  · simp only [h8, show i - 8 < 8 by omega, decide_true, Bool.true_and, if_true, if_false, Bool.false_eq_true,
      show 8 + (i - 8) = i by omega]
  · simp only [h8, show ¬ i - 8 < 8 by omega, show i - 8 - 8 < 48 by omega, decide_true, if_true, if_false]

/-- An SPR no bit of which has a value is read as a draw (R63, R64). -/
theorem State.regRead_of_unspecified_spr {s : State} {d : Designator} {c : Code} {w : Nat}
    (hl : d.loc s.params = some (.spr c)) (hw : d.width = .bits w) (hview : s.sprView c = Cell.unspecified 512)
    (k : Nat) : s.regRead d k = .bits w ((Config.freeBits k).setWidth w) := by
  have hat : s.viewAt (.spr c) = Cell.unspecified 512 := hview
  rw [State.regRead_eq_resolve k hl hw, hat, Cell.resolve_unspecified]

/-- A cell every bit of which has a value meets no unspecified bit, whatever the view (R73). -/
theorem State.specified_of_known {s : State} {d : Designator} {l : Loc} {n : Nat} {v : BitVec n}
    (hl : d.loc s.params = some l) (ha : l.apIndex = none) (hn : l.width = n)
    (hcell : s.cellAt l = Cell.widen ⟨v, BitVec.allOnes n⟩) : s.specified d = true := by
  have hle : min d.width.size n ≤ n := Nat.min_le_right _ _
  have hlow := Cell.widen_low v _ _ hle (hn ▸ Loc.width_le_512 l) (setWidth_allOnes_of_le hle)
  simp only [State.specified_of_loc hl, State.specifiedAt, ha, hcell, hn, hlow.1]

/-- One READ of a specified register, and two operands of one READ2 that name it. -/
theorem exec_read1_and_read2_of_specified {s : State} {d : Designator} (hv : d.valid = true)
    (hs : s.specified d = true) :
    exec (.read1 d) s = .next ((s.logResults [s.regRead d s.draws]).advanceDraws 1) ∧
      exec (.read2 d d) s = .next ((s.logResults [s.regRead d s.draws, s.regRead d (s.draws + 1)]).advanceDraws 2) :=
  ⟨exec_read1_of_valid hv (.inr hs), exec_read2_of_specified (by simp [hv]) (by simp [hs])⟩

/-- An SPR no bit of which has a value has a draw for each operand that names it (R63, R64, R120). -/
theorem exec_read1_and_read2_of_unspecified_spr {s : State} {d : Designator} {c : Code} {w : Nat}
    (hv : d.valid = true) (hl : d.loc s.params = some (.spr c)) (hw : d.width = .bits w)
    (hview : s.sprView c = Cell.unspecified 512) :
    exec (.read1 d) s = .next ((s.logResults [.bits w ((Config.freeBits s.draws).setWidth w)]).advanceDraws 1) ∧
      exec (.read2 d d) s = .next ((s.logResults [.bits w ((Config.freeBits s.draws).setWidth w),
        .bits w ((Config.freeBits (s.draws + 1)).setWidth w)]).advanceDraws 2) := by
  have h := exec_read1_and_read2_of_specified hv (State.specified_of_unstored hl)
  rwa [State.regRead_of_unspecified_spr hl hw hview, State.regRead_of_unspecified_spr hl hw hview] at h

/-- Settles O31: each register read by either operation has the draw of its operand. -/
theorem readingFlagsAndConfigReturnsTheStoredBits : Obligations.ReadingFlagsAndConfigReturnsTheStoredBits := by
  unfold Obligations.ReadingFlagsAndConfigReturnsTheStoredBits
  intro s draw sizes
  refine ⟨fun v hcell => ?_, fun v hcell => ?_, fun n hn => ?_⟩
  · have h := exec_read1_and_read2_of_specified (d := (RegName.spr .flags).designator) rfl
      (State.specified_of_known (l := .flags) rfl rfl rfl (congrArg Cell.widen hcell))
    rwa [State.regRead_flags hcell, State.regRead_flags hcell] at h
  · have h := exec_read1_and_read2_of_specified (d := (RegName.spr .config).designator) rfl
      (State.specified_of_known (l := .config) rfl rfl rfl (congrArg Cell.widen hcell))
    rwa [State.regRead_config hcell, State.regRead_config hcell] at h
  · simp only [List.mem_cons, List.not_mem_nil, or_false] at hn
    rcases hn with rfl | rfl
    · exact exec_read1_and_read2_of_unspecified_spr (c := 10) rfl rfl rfl rfl
    · exact exec_read1_and_read2_of_unspecified_spr (c := 11) rfl rfl rfl rfl

end Sys2Proof.Machine

/-! PROOF. What a WRITE1 stores (R29, R37 to R47, R53 to R67, R71). -/

namespace Sys2Proof.Machine

/-! ### What a store leaves in a cell -/

/-- A value at least as wide as its cell fills it with its low-order bits. -/
theorem Cell.store_narrow_of_le {w n : Nat} (b : BitVec w) (h : n ≤ w) (hn : n ≤ 512) :
    (Cell.store b).narrow n = ⟨b.setWidth n, BitVec.allOnes n⟩ := by
  rw [Cell.store_narrow b n hn, setWidth_allOnes_of_le h]

theorem Cell.store_narrow_self {n : Nat} (b : BitVec n) (hn : n ≤ 512) :
    (Cell.store b).narrow n = ⟨b, BitVec.allOnes n⟩ := by
  rw [Cell.store_narrow_of_le b (Nat.le_refl n) hn, BitVec.setWidth_eq]

theorem Cell.store_append_narrow {m n : Nat} (hi : BitVec m) (lo : BitVec n) (hn : n ≤ 512) :
    (Cell.store (hi ++ lo)).narrow n = ⟨lo, BitVec.allOnes n⟩ := by
  rw [Cell.store_narrow_of_le _ (Nat.le_add_left n m) hn, BitVec.setWidth_append_eq_right]

/-- Settles O36: R0 has no cell, and every other GPR fills its own. -/
theorem writingAGprStoresTheValue : Obligations.WritingAGprStoresTheValue := by
  unfold Obligations.WritingAGprStoresTheValue
  intro s c v
  refine ⟨?_, fun i hc => ?_⟩
  · rintro rfl
    rw [exec_write1_of_checks rfl rfl rfl]
    rfl
  · rw [exec_write1_of_cell v rfl rfl (loc_gpr s.params c i hc) rfl, State.setCell,
      Cell.store_narrow_self v (by decide)]

/-- Settles O37: the three views of `PF[i]` leave the low-order bits of its 128. -/
theorem writingASharedFprUnspecifiesTheUpperBits : Obligations.WritingASharedFprUnspecifiesTheUpperBits := by
  unfold Obligations.WritingASharedFprUnspecifiesTheUpperBits
  intro s i
  refine ⟨fun v => ?_, fun v => ?_, fun v => ?_⟩
  · rw [exec_write1_of_cell v rfl (width_f ⟨i, by omega⟩) (loc_f s.params i _) rfl, State.setCell,
      Cell.store_narrow v 128 (by decide)]
    rfl
  · rw [exec_write1_of_cell v rfl (width_d _) (loc_d s.params i _) rfl, State.setCell,
      Cell.store_narrow v 128 (by decide)]
    rfl
  · rw [exec_write1_of_cell v rfl (width_q _) (loc_q s.params i _) rfl, State.setCell,
      Cell.store_narrow_self v (by decide)]

/-- Settles O38: the cells of rows 8 to 15 under either parameter. -/
theorem writingAnUpperFprRowFollowsTheAliasParameter : Obligations.WritingAnUpperFprRowFollowsTheAliasParameter := by
  unfold Obligations.WritingAnUpperFprRowFollowsTheAliasParameter
  intro s i a b q
  have hf := loc_f_upper s.params i (by omega)
  have hd := loc_d_upper s.params i (by omega)
  have hq := loc_q_upper s.params i (by omega)
  have hwf := width_f ⟨8 + i.val, by omega⟩
  refine ⟨fun hp => ⟨?_, ?_⟩, fun hp => ⟨?_, ?_⟩, ?_⟩
  · rw [hp] at hf
    rw [exec_write1_of_cell a rfl hwf hf rfl, State.setCell, Cell.store_narrow_self a (by decide)]
  · rw [hp] at hd
    rw [exec_write1_of_cell b rfl (width_d _) hd rfl, State.setCell, Cell.store_narrow_self b (by decide)]
  · rw [hp] at hf
    rw [exec_write1_of_cell a rfl hwf hf rfl, State.setCell, Cell.store_narrow a 128 (by decide)]
    rfl
  · rw [hp] at hd
    rw [exec_write1_of_cell b rfl (width_d _) hd rfl, State.setCell, Cell.store_narrow b 128 (by decide)]
    rfl
  · rw [exec_write1_of_cell q rfl (width_q _) hq rfl, State.setCell, Cell.store_narrow_self q (by decide)]

/-- Settles O39: a bit value has a width, an AP register none. -/
theorem writingAnApRegisterStoresTheValue : Obligations.WritingAnApRegisterStoresTheValue := by
  unfold Obligations.WritingAnApRegisterStoresTheValue
  intro s i a
  constructor
  · rw [exec_write1_of_checks (v := .ap a) rfl (width_ap i).symm rfl, State.regWrite_of_loc (loc_ap s.params i)]
    rfl
  · intro w b
    have hwidth : (Value.bits w b).width ≠ (RegName.ap i).designator.width := by
      rw [width_ap]
      nofun
    exact writePattern_of_wrong_width (ws := [((RegName.ap i).designator, .bits w b)]) rfl (by simpa using hwidth)

/-- Settles O40: the four views of `PV[j]` leave the low-order bits of its 512. -/
theorem writingAVrUnspecifiesTheUpperBits : Obligations.WritingAVrUnspecifiesTheUpperBits := by
  unfold Obligations.WritingAVrUnspecifiesTheUpperBits
  intro s a b c d
  refine ⟨fun j => ?_, fun j => ?_⟩
  · obtain ⟨h512, h256, h128, h64, hvh⟩ := loc_v s.params j
    refine ⟨?_, ?_, ?_, ?_, ?_⟩
    · rw [exec_write1_of_cell a (valid_v _) (width_v512 ⟨j, by omega⟩) h512 rfl, State.setCell,
        Cell.store_narrow_self a (by decide)]
    · rw [exec_write1_of_cell b (valid_v _) (width_v256 ⟨j, by omega⟩) h256 rfl, State.setCell,
        Cell.store_narrow b 512 (by decide)]
    · rw [exec_write1_of_cell c (valid_v _) (width_v128 j) h128 rfl, State.setCell,
        Cell.store_narrow c 512 (by decide)]
    · rw [exec_write1_of_cell d (valid_v _) (width_v64 j) h64 rfl, State.setCell,
        Cell.store_narrow d 512 (by decide)]
    · rw [exec_write1_of_cell b (valid_v _) (width_vh j) hvh rfl, State.setCell,
        Cell.store_narrow_self b (by decide)]
  · rw [exec_write1_of_cell a (valid_v _) (width_v512 ⟨4 + j.val, by omega⟩) (loc_vw s.params j) rfl, State.setCell,
      Cell.store_narrow_self a (by decide)]

/-- Settles O41: the cell of an SPR is its own, or the one of the GPR it names. -/
theorem writingAStoredSprStoresTheValue : Obligations.WritingAStoredSprStoresTheValue := by
  unfold Obligations.WritingAStoredSprStoresTheValue
  intro s v p
  refine ⟨fun hp => ?_, fun hp => ?_, ?_⟩
  · obtain ⟨hsp, hfp, hlr⟩ := loc_spr_of_separate hp
    refine ⟨?_, ?_, ?_⟩
    · rw [exec_write1_of_cell v rfl rfl hsp rfl, State.setCell, Cell.store_narrow_self v (by decide)]
    · rw [exec_write1_of_cell v rfl rfl hfp rfl, State.setCell, Cell.store_narrow_self v (by decide)]
    · rw [exec_write1_of_cell v rfl rfl hlr rfl, State.setCell, Cell.store_narrow_self v (by decide)]
  · obtain ⟨hsp, hfp, hlr⟩ := loc_spr_of_shared hp
    exact ⟨exec_write1_congr rfl hsp rfl rfl, exec_write1_congr rfl hfp rfl rfl, exec_write1_congr rfl hlr rfl rfl⟩
  · rw [exec_write1_of_cell (l := .priority) p rfl rfl rfl rfl, State.setCell, Cell.store_narrow_self p (by decide)]

/-! ### FLAGS, CONFIG and the SPRs that refuse a write -/

/-- Stage 4 of a WRITE1 (R130). -/
theorem exec_write1_of_refusal {s : State} {d : Designator} {v : Value} {r : Refusal} (hv : d.valid = true)
    (hw : v.width = d.width) (hr : writeRefusal s.params (d, v) = some r) :
    exec (.write1 d v) s = .refused r :=
  (writePattern_of_disjoint (ws := [(d, v)]) (by simpa using hv) (by simpa using hw) rfl).1 r (by simp [hr])

theorem wide_extractLsb' {w : Nat} (v : BitVec w) {start len : Nat} (h : start + len ≤ 512) :
    (Value.wide (.bits w v)).extractLsb' start len = v.extractLsb' start len :=
  BitVec.extractLsb'_setWidth_of_le h

/-- Stage 4 of R130 for FLAGS looks at the bits above the sixteen flags (R59). -/
theorem writeRefusal_flags (p : Params) (hi : BitVec 48) (lo : BitVec 16) :
    writeRefusal p ((RegName.spr .flags).designator, .bits 64 (hi ++ lo)) =
      if hi = 0#48 then none else some .reservedFieldWrite := by
  have hbits : (Value.wide (.bits 64 (hi ++ lo))).extractLsb' 16 48 = hi := by
    rw [wide_extractLsb' _ (by decide), BitVec.extractLsb'_append_eq_left]
  show (if (Value.wide (.bits 64 (hi ++ lo))).extractLsb' 16 48 = 0#48 then _ else _) = _
  rw [hbits]

/-- Stage 4 of R130 for CONFIG looks at the reserved field, then at the sizes and counts (R61). -/
theorem writeRefusal_config (p : Params) (hi : BitVec 48) (mid lo : BitVec 8) :
    writeRefusal p ((RegName.spr .config).designator, .bits 64 (hi ++ mid ++ lo)) =
      if mid ≠ 0#8 then some .reservedFieldWrite else if hi ≠ configUpper p then some .unmodelledWrite else none := by
  have hmid : (Value.wide (.bits 64 (hi ++ mid ++ lo))).extractLsb' 8 8 = mid := by
    rw [wide_extractLsb' _ (by decide), BitVec.extractLsb'_append_eq_of_le (by decide),
      BitVec.extractLsb'_append_eq_right]
  have hhi : (Value.wide (.bits 64 (hi ++ mid ++ lo))).extractLsb' 16 48 = hi := by
    rw [wide_extractLsb' _ (by decide), BitVec.extractLsb'_append_eq_of_le (by decide),
      BitVec.extractLsb'_append_eq_left]
  show (if (Value.wide (.bits 64 (hi ++ mid ++ lo))).extractLsb' 8 8 ≠ 0#8 then _
    else if (Value.wide (.bits 64 (hi ++ mid ++ lo))).extractLsb' 16 48 ≠ configUpper p then _ else _) = _
  rw [hmid, hhi]

theorem Cell.bit?_of_known {w i : Nat} (v : BitVec w) (h : i < w) :
    Cell.bit? ⟨v, BitVec.allOnes w⟩ i = some (v.getLsbD i) := by
  simp only [Cell.bit?, BitVec.getLsbD_allOnes, h, decide_true, if_true]

theorem State.flag?_of_known {s : State} {v : BitVec 16} (h : s.flags = ⟨v, BitVec.allOnes 16⟩) (f : Flag) :
    s.flag? f = some (v.getLsbD f.bit) := by
  rw [State.flag?, h, Cell.bit?_of_known v (by cases f <;> decide)]

theorem State.enable?_of_known {s : State} {v : BitVec 8} (h : s.config = ⟨v, BitVec.allOnes 8⟩) (e : Enable) :
    s.enable? e = some (v.getLsbD e.bit) := by
  rw [State.enable?, h, Cell.bit?_of_known v (by cases e <;> decide)]

/-- Settles O42: stage 4 looks at the bits above the flags, and the cell keeps the bits below. -/
theorem writingFlagsStoresTheNamedFlags : Obligations.WritingFlagsStoresTheNamedFlags := by
  unfold Obligations.WritingFlagsStoresTheNamedFlags
  intro s hi lo
  have hrefusal := writeRefusal_flags s.params hi lo
  refine ⟨fun h0 => ?_, fun h0 => ?_⟩
  · intro t
    have hflag := State.flag?_of_known (s := t) rfl
    refine ⟨?_, hflag .ZF, hflag .SF, hflag .OF, hflag .CF, hflag .PF, hflag .AF, hflag .DF, hflag .IF, hflag .TF,
      hflag .IOPL, hflag .NT, hflag .RF, hflag .VM, hflag .AC, hflag .VIF, hflag .VIP⟩
    rw [if_pos h0] at hrefusal
    rw [exec_write1_of_cell (l := .flags) _ rfl rfl rfl hrefusal, State.setCell,
      Cell.store_append_narrow hi lo (by decide)]
  · rw [if_neg h0] at hrefusal
    exact exec_write1_of_refusal rfl rfl hrefusal

/-- Settles O43: stage 4 looks at the reserved field first, and the cell keeps the enables. -/
theorem writingConfigStoresTheEnables : Obligations.WritingConfigStoresTheEnables := by
  unfold Obligations.WritingConfigStoresTheEnables
  intro s hi mid lo
  have hrefusal := writeRefusal_config s.params hi mid lo
  refine ⟨fun hmid => ?_, fun hmid hhi => ?_, fun hmid hhi => ?_⟩
  · rw [if_pos hmid] at hrefusal
    exact exec_write1_of_refusal rfl rfl hrefusal
  · rw [if_neg (not_not.2 hmid), if_pos (show hi ≠ configUpper s.params from hhi)] at hrefusal
    exact exec_write1_of_refusal rfl rfl hrefusal
  · intro t
    have henable := State.enable?_of_known (s := t) rfl
    refine ⟨?_, henable .FPU_EN, henable .VEC_EN, henable .MIMD_EN, henable .AI_EN, henable .CACHE_EN,
      henable .TLB_EN, henable .DEBUG_EN, henable .TRACE_EN⟩
    rw [if_neg (not_not.2 hmid), if_neg (not_not.2 (show hi = configUpper s.params from hhi))] at hrefusal
    rw [exec_write1_of_cell (l := .config) _ rfl rfl rfl hrefusal, State.setCell,
      Cell.store_append_narrow (hi ++ mid) lo (by decide)]

theorem valid_reserved (i : Fin 4) : (RegName.spr (.reserved i)).designator.valid = false := by
  fin_cases i <;> rfl

/-- Settles O44: stage 4 refuses the six by code, stage 1 the reserved ones. -/
theorem writingAnUnmodelledSprIsRefused : Obligations.WritingAnUnmodelledSprIsRefused := by
  unfold Obligations.WritingAnUnmodelledSprIsRefused
  intro s v w u i
  refine ⟨?_, ?_, ?_, ?_, ?_, ?_, ?_, ?_⟩
  case refine_7 => exact readPattern_of_invalid (by simpa using valid_reserved i)
  case refine_8 => exact writePattern_of_invalid (by simpa using valid_reserved i)
  all_goals exact exec_write1_of_refusal rfl rfl rfl

end Sys2Proof.Machine

/-! PROOF. What a WRITE leaves unchanged, and READs and WRITEs in sequence (R71, R125, R130, R135, R163, R164). -/

namespace Sys2Proof.Machine

/-! ### The cells a WRITE does not name -/

/-- Settles O45, from the state a WRITE leads to. -/
theorem writesChangeOnlyTheCellsTheyName : Obligations.WritesChangeOnlyTheCellsTheyName := by
  unfold Obligations.WritesChangeOnlyTheCellsTheyName
  intro s t i hw h
  rcases exec_next_cases h with ⟨hw', _⟩ | ⟨_, hd, _, rfl⟩
  · exact absurd hw' hw
  · have hmem {w : Designator × Value} (hmem : w ∈ i.writes) : w.1 ∈ i.designators :=
      hd ▸ List.mem_map_of_mem hmem
    refine ⟨fun l hl => ?_, fun k hk => ?_, by simp, by simp, by simp, by simp⟩
    · rw [State.cellAt_logResults]
      exact s.cellAt_writeAll_ne i.writes l fun w hw => hl w.1 (hmem hw)
    · exact s.ap_writeAll_ne i.writes k fun w hw => hk w.1 (hmem hw)

/-- An SPR's own cell is no other register's (R72). -/
theorem eq_of_loc_of_spr {p : Params} {d : Designator} {c : Code} {l : Loc} (hd : d.loc p = some l)
    (he : Designator.loc p ⟨.spr, c⟩ = some l) (hl : l.file = .spr) : d = ⟨.spr, c⟩ := by
  have hfile : d.file = .spr := by
    rcases Designator.file_of_loc hd with h | ⟨h, _⟩
    · rw [← h, hl]
    · exact h
  obtain ⟨file, c'⟩ := d
  obtain rfl : file = .spr := hfile
  rw [sprLoc_inj.1 (Option.some.inj (hd.trans he.symm) : sprLoc p c' = sprLoc p c)]

theorem eq_flags_of_loc {p : Params} {d : Designator} (h : d.loc p = some .flags) : d = ⟨.spr, 4⟩ :=
  eq_of_loc_of_spr h rfl rfl

theorem Cell.widen_inj {n : Nat} {c e : Cell n} (hn : n ≤ 512) (h : c.widen = e.widen) : c = e := by
  have hnarrow (c : Cell n) : c.widen.narrow n = c := by
    rw [Cell.ext_iff', Cell.narrow_val, Cell.narrow_known, Cell.widen_val, Cell.widen_known]
    exact ⟨by rw [BitVec.setWidth_setWidth_of_le _ hn, BitVec.setWidth_eq],
      by rw [BitVec.setWidth_setWidth_of_le _ hn, BitVec.setWidth_eq]⟩
  rw [← hnarrow c, h, hnarrow]

/-- Settles O47: the cell of FLAGS is no other register's. -/
theorem noOperationSetsAFlagAsASideEffect : Obligations.NoOperationSetsAFlagAsASideEffect := by
  unfold Obligations.NoOperationSetsAFlagAsASideEffect
  intro s t i h hflags
  rcases exec_next_cases h with ⟨_, rfl⟩ | ⟨_, _, _, rfl⟩
  · rfl
  · have hcell : (s.writeAll i.writes).cellAt .flags = s.cellAt .flags := by
      refine s.cellAt_writeAll_ne i.writes .flags fun w hw hl => hflags ?_
      exact eq_flags_of_loc hl ▸ List.mem_map_of_mem hw
    exact Cell.widen_inj (by decide) hcell

/-! ### The order of the operands of a WRITE -/

/-- Two registers with no cell in common. -/
def Designator.Apart (p : Params) (d e : Designator) : Prop := d.loc p = e.loc p → d.loc p = none

theorem Designator.Apart.symm {p : Params} {d e : Designator} (h : Designator.Apart p d e) :
    Designator.Apart p e d := fun he => he.trans (h he.symm)

theorem Designator.apart_of_overlap {p : Params} {d e : Designator} (hd : d.valid = true) (he : e.valid = true)
    (h : d.overlap p e = false) : Designator.Apart p d e := by
  intro hl
  cases hloc : d.loc p with
  | none => rfl
  | some l => exact absurd (Designator.overlap_iff.2 ⟨hd, he, l, hloc, hl ▸ hloc⟩) (Bool.eq_false_iff.1 h)

/-- Writes of registers apart from each other may be done in any order. -/
theorem State.writeAll_perm {ws ws' : List (Designator × Value)} (hperm : ws.Perm ws') {s : State}
    (h : ws.Pairwise fun a b => Designator.Apart s.params a.1 b.1) : s.writeAll ws = s.writeAll ws' := by
  induction hperm generalizing s with
  | nil => rfl
  | cons w _ ih => exact ih (by simpa using h.of_cons)
  | swap a b ws =>
    have hba : Designator.Apart s.params b.1 a.1 := List.rel_of_pairwise_cons h List.mem_cons_self
    simp only [State.writeAll, State.regWrite_comm b.2 a.2 hba]
  | trans hperm _ ih ih' =>
    exact (ih h).trans (ih' ((hperm.pairwise_iff fun h => Designator.Apart.symm h).1 h))

/-- A WRITE of the same pairs in another order passes the same checks and leads to the same state (R130). -/
theorem writePattern_next_of_perm {ws ws' : List (Designator × Value)} {s t : State} (hperm : ws.Perm ws')
    (h : writePattern ws s = .next t) : writePattern ws' s = .next t := by
  obtain ⟨hv, hw, ho, hr, rfl⟩ := (writePattern_next_iff ws s t).1 h
  rw [anyOverlap_eq_false_iff] at ho
  have hapart : ws.Pairwise fun a b => Designator.Apart s.params a.1 b.1 :=
    (List.pairwise_map.1 ho).imp_of_mem fun ha hb hab =>
      Designator.apart_of_overlap (List.all_eq_true.1 hv _ ha) (List.all_eq_true.1 hv _ hb) hab
  refine (writePattern_next_iff ws' s _).2 ⟨hperm.all_eq ▸ hv, hperm.all_eq ▸ hw, ?_, ?_, ?_⟩
  · rw [anyOverlap_eq_false_iff]
    exact ((hperm.map _).pairwise_iff fun h => (Designator.overlap_comm _ _ _).trans h).1 ho
  · rw [List.findSome?_eq_none_iff] at hr ⊢
    exact fun w hw => hr w (hperm.mem_iff.2 hw)
  · rw [State.writeAll_perm hperm hapart]

/-- Settles O46: the checks and the writes of disjoint pairs do not depend on the order. -/
theorem operandOrderOfAWriteDoesNotMatter : Obligations.OperandOrderOfAWriteDoesNotMatter := by
  unfold Obligations.OperandOrderOfAWriteDoesNotMatter
  intro s t i j hw hperm h
  have hw' : j.writes ≠ [] := fun hnil => hw (List.perm_nil.1 (hnil ▸ hperm))
  rw [exec_of_writes hw] at h
  rw [exec_of_writes hw']
  exact writePattern_next_of_perm hperm h

/-! ### Two accesses in sequence -/

theorem State.putAt_logResults (s : State) (r : List Value) (l : Loc) (v : Value) :
    (s.logResults r).putAt l v = (s.putAt l v).logResults r := by
  cases v with
  | bits w b => cases l <;> rfl
  | ap a => cases l <;> rfl

theorem State.regWrite_logResults (s : State) (r : List Value) (d : Designator) (v : Value) :
    (s.logResults r).regWrite d v = (s.regWrite d v).logResults r := by
  simp only [State.regWrite, State.logResults_params, State.putAt_logResults]
  cases d.loc s.params <;> rfl

theorem State.setCell_setCell (s : State) (l : Loc) (c c' : Cell 512) :
    (s.setCell l c).setCell l c' = s.setCell l c' := by
  cases l <;> simp [State.setCell]

theorem State.setAp_setAp (s : State) (i : Fin 16) (a b : APValue) : (s.setAp i a).setAp i b = s.setAp i b := by
  simp [State.setAp]

/-- The later of two stores of one kind in one cell leaves nothing of the earlier. -/
theorem State.putAt_putAt (s : State) (l : Loc) {v v' : Value} (h : v.width = v'.width) :
    (s.putAt l v).putAt l v' = s.putAt l v' := by
  cases v with
  | bits w b =>
    cases v' with
    | bits w' b' => exact s.setCell_setCell l _ _
    | ap a' => cases h
  | ap a =>
    cases v' with
    | bits w' b' => cases h
    | ap a' =>
      simp only [State.putAt]
      cases l.apIndex with
      | none => rfl
      | some i => exact s.setAp_setAp i a a'

theorem State.regWrite_regWrite (s : State) (d : Designator) {v v' : Value} (h : v.width = v'.width) :
    (s.regWrite d v).regWrite d v' = s.regWrite d v' := by
  cases hl : d.loc s.params with
  | none => simp [State.regWrite, hl]
  | some l =>
    rw [State.regWrite_of_loc hl, State.regWrite_of_loc hl, State.regWrite_of_loc (l := l) (by simpa using hl),
      s.putAt_putAt l h]

/-- Settles O51: the second store leaves nothing of the first. -/
theorem theLaterOfTwoWritesStays : Obligations.TheLaterOfTwoWritesStays := by
  unfold Obligations.TheLaterOfTwoWritesStays
  intro s t d a b ha u hb
  obtain ⟨hv, hwa, _, rfl⟩ := exec_write1_next ha
  obtain ⟨_, hwb, hrb, rfl⟩ := exec_write1_next hb
  rw [exec_write1_of_checks hv hwb (by simpa using hrb), State.regWrite_logResults,
    s.regWrite_regWrite d (hwa.trans hwb.symm)]

/-- Settles O50: the cell of the one register is not the other's. -/
theorem aWriteLeavesEveryOtherRegister : Obligations.AWriteLeavesEveryOtherRegister := by
  unfold Obligations.AWriteLeavesEveryOtherRegister
  intro s t d e v h he hover
  obtain ⟨hv, _, _, rfl⟩ := exec_write1_next h
  have hapart := Designator.apart_of_overlap hv he hover
  simp only [State.specified_logResults, State.regRead_logResults]
  cases hl : d.loc s.params with
  | none => simp [State.regWrite, hl]
  | some l =>
    have hne : e.loc s.params ≠ some l := fun hel => by simpa [hl] using hapart (hl.trans hel.symm)
    rw [State.regWrite_of_loc hl]
    exact ⟨s.specified_putAt_ne e l v hne, fun k => s.regRead_putAt_ne e l v k hne⟩

/-! ### A READ1 of a register that overlaps the one just written -/

theorem apIndex_of_width_bits {p : Params} {d : Designator} {l : Loc} {w : Nat} (hl : d.loc p = some l)
    (hw : d.width = .bits w) : l.apIndex = none := by
  cases h : l.apIndex with
  | none => rfl
  | some i =>
    have hap := (Designator.width_of_apIndex hl).1 (by simp [h])
    rw [hw] at hap
    cases hap

/-- Of the SPRs a WRITE1 can store in only FLAGS and CONFIG have views wider than their cells (R53 to R67). -/
theorem spr_of_write1 {s t : State} {c : Code} {v : Value} (h : exec (.write1 ⟨.spr, c⟩ v) s = .next t) :
    c ∈ ([1, 2, 3, 7] : List Code) ∨ c = 4 ∨ c = 8 := by
  obtain ⟨hv, _, hr, _⟩ := exec_write1_next h
  have hcases : ∀ c : Code, Designator.valid ⟨.spr, c⟩ = true →
      (c ∈ ([1, 2, 3, 7] : List Code) ∨ c = 4 ∨ c = 8) ∨ c ∈ ([0, 5, 6, 9, 10, 11] : List Code) := by decide
  rcases hcases c hv with hstored | hrefused
  · exact hstored
  · simp only [List.mem_cons, List.not_mem_nil, or_false] at hrefused
    rcases hrefused with rfl | rfl | rfl | rfl | rfl | rfl <;> cases hr

theorem Loc.eq_g_of_file {l : Loc} (h : Loc.file l = .gpr) : ∃ i, l = .g i := by
  cases l with
  | g i => exact ⟨i, rfl⟩
  | _ => cases h

/-- An SPR whose cell a WRITE1 reached is stored, in part or whole (R67). -/
theorem spr_of_write1_of_loc {s t : State} {d : Designator} {c : Code} {v : Value} {l : Loc}
    (h : exec (.write1 d v) s = .next t) (hd : d.loc s.params = some l)
    (he : Designator.loc s.params ⟨.spr, c⟩ = some l) : c ∈ ([1, 2, 3, 7] : List Code) ∨ c = 4 ∨ c = 8 := by
  rcases Designator.file_of_loc he with hl | ⟨_, hl⟩
  · exact spr_of_write1 (eq_of_loc_of_spr hd he hl ▸ h)
  · obtain ⟨i, rfl⟩ := Loc.eq_g_of_file hl
    obtain ⟨_, hcases⟩ := sprLoc_eq_g_iff.1 (Option.some.inj he)
    rcases hcases with ⟨rfl, _⟩ | ⟨rfl, _⟩ | ⟨rfl, _⟩ <;> exact .inl (by decide)

/-- A register of bits, FLAGS and CONFIG and the SPRs without storage apart, is a view of its cell (R70). -/
theorem view_of_stored {p : Params} {e : Designator} {l : Loc} {w : Nat} (hl : e.loc p = some l)
    (hw : e.width = .bits w) (hspr : e.file = .spr → e.code ∈ ([1, 2, 3, 7] : List Code)) :
    w ≤ l.width ∧ ∀ s : State, s.viewAt l = s.cellAt l := by
  obtain ⟨file, c⟩ := e
  cases file with
  | gpr =>
    obtain ⟨i, _, rfl⟩ := gprLoc_eq_some_iff.1 hl
    obtain rfl := ViewWidth.bits.inj hw
    exact ⟨Nat.le_refl _, fun _ => rfl⟩
  | fpr =>
    obtain ⟨hle, _, _, hview⟩ := Designator.view_of_fpr_vr (.inl rfl) hl hw
    exact ⟨hle, hview⟩
  | vr =>
    obtain ⟨hle, _, _, hview⟩ := Designator.view_of_fpr_vr (.inr rfl) hl hw
    exact ⟨hle, hview⟩
  | spr =>
    obtain rfl := Option.some.inj hl
    obtain rfl := ViewWidth.bits.inj hw
    exact sprLoc_of_stored p (hspr rfl)

/-- FLAGS reads as its sixteen stored bits under a draw (R59). -/
theorem exec_read1_flags {s : State} {v : BitVec 16} (h : s.flags = ⟨v, BitVec.allOnes 16⟩) :
    ∃ r : BitVec 64, exec (.read1 ⟨.spr, 4⟩) s = .next ((s.logResults [.bits 64 r]).advanceDraws 1) ∧
      r.setWidth 16 = v := by
  obtain ⟨hflags, _⟩ := readingFlagsAndConfigReturnsTheStoredBits s
  exact ⟨_, (hflags v h).1, BitVec.setWidth_append_eq_right⟩

/-- CONFIG reads as its eight stored bits under a draw and the parameters (R61). -/
theorem exec_read1_config {s : State} {v : BitVec 8} (h : s.config = ⟨v, BitVec.allOnes 8⟩) :
    ∃ r : BitVec 64, exec (.read1 ⟨.spr, 8⟩) s = .next ((s.logResults [.bits 64 r]).advanceDraws 1) ∧
      r.setWidth 8 = v := by
  obtain ⟨_, hconfig, _⟩ := readingFlagsAndConfigReturnsTheStoredBits s
  exact ⟨_, (hconfig v h).1, BitVec.setWidth_append_eq_right⟩

/-- Settles O48: a view of the cell written holds the value's low bits, and so does the part of FLAGS and
CONFIG that is stored; every other SPR would have refused the write. -/
theorem aReadAfterAnOverlappingWriteSeesTheValue : Obligations.AReadAfterAnOverlappingWriteSeesTheValue := by
  unfold Obligations.AReadAfterAnOverlappingWriteSeesTheValue
  intro s t d e w w' b h hover hew hle
  obtain ⟨_, hev, l, hdl, hel⟩ := Designator.overlap_iff.1 hover
  obtain ⟨_, _, _, ht⟩ := exec_write1_next h
  rw [State.regWrite_of_loc hdl] at ht
  by_cases hflags : e = ⟨.spr, 4⟩
  · subst hflags
    obtain rfl := Option.some.inj hel
    obtain rfl := ViewWidth.bits.inj hew
    have hcell : t.flags = ⟨b.setWidth 16, BitVec.allOnes 16⟩ :=
      ht ▸ Cell.store_narrow_of_le b (Nat.le_trans (by decide) hle) (by decide)
    obtain ⟨r, hread, hr⟩ := exec_read1_flags hcell
    exact ⟨r, hread, fun hne => absurd rfl hne, fun _ => hr, nofun⟩
  by_cases hconfig : e = ⟨.spr, 8⟩
  · subst hconfig
    obtain rfl := Option.some.inj hel
    obtain rfl := ViewWidth.bits.inj hew
    have hcell : t.config = ⟨b.setWidth 8, BitVec.allOnes 8⟩ :=
      ht ▸ Cell.store_narrow_of_le b (Nat.le_trans (by decide) hle) (by decide)
    obtain ⟨r, hread, hr⟩ := exec_read1_config hcell
    exact ⟨r, hread, fun _ hne => absurd rfl hne, nofun, fun _ => hr⟩
  have hspr : e.file = .spr → e.code ∈ ([1, 2, 3, 7] : List Code) := by
    obtain ⟨file, c⟩ := e
    rintro rfl
    rcases spr_of_write1_of_loc h hdl hel with hc | rfl | rfl
    · exact hc
    · exact absurd rfl hflags
    · exact absurd rfl hconfig
  obtain ⟨hlw, hview⟩ := view_of_stored hel hew hspr
  obtain ⟨_, _, _, rfl⟩ := exec_write1_next h
  exact ⟨_, exec_read1_of_regWrite hev hdl hel hew hle hlw (Loc.width_le_512 l) (apIndex_of_width_bits hel hew)
      hview [],
    fun _ _ => rfl, fun h => absurd h hflags, fun h => absurd h hconfig⟩

/-- A register with a GPR's cell is a view of 64 bits, an SPR too (R54). -/
theorem width_of_loc_g {p : Params} {d : Designator} {i : Fin 63} (h : d.loc p = some (.g i)) : d.width = .bits 64 := by
  obtain ⟨file, c⟩ := d
  rcases Designator.file_of_loc h with hfile | ⟨hfile, _⟩
  · obtain rfl : RegFile.gpr = file := hfile
    rfl
  · obtain rfl : file = .spr := hfile
    obtain ⟨_, hcases⟩ := sprLoc_eq_g_iff.1 (Option.some.inj h)
    rcases hcases with ⟨rfl, _⟩ | ⟨rfl, _⟩ | ⟨rfl, _⟩ <;> rfl

/-- Registers of one cell are views of one width, FPRs and VRs apart. -/
theorem width_eq_of_loc {p : Params} {d e : Designator} {l : Loc} (hd : d.loc p = some l) (he : e.loc p = some l)
    (hf : e.file = .gpr ∨ e.file = .spr) : d.width = e.width := by
  have hl : Loc.file l = .gpr ∨ (e.file = .spr ∧ Loc.file l = .spr) := by
    rcases Designator.file_of_loc he with h | ⟨_, h⟩
    · rcases hf with hf | hf
      · exact .inl (h.trans hf)
      · exact .inr ⟨hf, h.trans hf⟩
    · exact .inl h
  rcases hl with hl | ⟨hf, hl⟩
  · obtain ⟨i, rfl⟩ := Loc.eq_g_of_file hl
    rw [width_of_loc_g hd, width_of_loc_g he]
  · obtain ⟨file, c⟩ := e
    obtain rfl : file = .spr := hf
    rw [eq_of_loc_of_spr hd he hl]

/-- Settles O49: the wider view is one of an FPR or a VR, since a GPR and an SPR of one cell are equally wide.
-/
theorem aWiderReadAfterANarrowWriteFaults : Obligations.AWiderReadAfterANarrowWriteFaults := by
  unfold Obligations.AWiderReadAfterANarrowWriteFaults
  intro s t d e w w' b h hover hew hlt hp
  obtain ⟨_, _, l, hdl, hel⟩ := Designator.overlap_iff.1 hover
  obtain ⟨_, hdw, _, _⟩ := exec_write1_next h
  have hfile : e.file = .fpr ∨ e.file = .vr := by
    by_contra hne
    have hf : e.file = .gpr ∨ e.file = .spr := by cases hf : e.file <;> simp_all
    have hww : w = w' := ViewWidth.bits.inj (hdw.trans ((width_eq_of_loc hdl hel hf).trans hew))
    exact absurd hww (Nat.ne_of_lt hlt)
  exact exec_read1_faults_of_narrow_write1 hp hover hfile hew hlt h

end Sys2Proof.Machine

/-! PROOF. What every step keeps: sound cells (R74, R75), and registers that no enable or feature gates (R66). -/

namespace Sys2Proof.Machine

/-! ### Reset -/

theorem Cell.widen_unspecified (n : Nat) : (Cell.unspecified n).widen = Cell.unspecified 512 := by
  simp [Cell.widen, Cell.unspecified]

/-- Settles O11: every cell is stored without a value. -/
theorem resetLeavesEveryCellUnspecified : Obligations.ResetLeavesEveryCellUnspecified := by
  unfold Obligations.ResetLeavesEveryCellUnspecified
  refine ⟨fun l => ?_, fun i => ?_, rfl, rfl, rfl, rfl, rfl⟩
  · cases l <;> simp [State.cellAt, State.reset, Cell.widen_unspecified]
  · simp [State.reset, ApCell.unwritten]

theorem replicate_unspecified_sound {n w : Nat} {vs : List Nat} (h : 0 ∈ vs) (i : Fin n) :
    (Vector.replicate n (Cell.unspecified w))[i].Sound vs := by
  rw [Fin.getElem_fin, Vector.getElem_replicate]
  exact Cell.unspecified_sound w vs h

/-- Settles O53: a cell without a value is sound for any views. -/
theorem theCellsAreSoundAfterReset : Obligations.TheCellsAreSoundAfterReset := by
  unfold Obligations.TheCellsAreSoundAfterReset
  refine ⟨?g, ?pf, ?fs, ?fd, ?fq, ?ap, ?pv, ?vw, ?vh, ?sp, ?fp, ?lr, ?flags, ?priority, ?config⟩
  case ap => exact fun i _ => by simp [State.reset, ApCell.unwritten]
  case sp | fp | lr | flags | priority | config => exact Cell.unspecified_sound _ _ (by decide)
  all_goals exact replicate_unspecified_sound (by decide)

/-! ### Sound cells -/

theorem State.writeAll_sound {s : State} {ws : List (Designator × Value)} (hs : s.CellsSound)
    (hw : ∀ w ∈ ws, w.2.width = w.1.width) : (s.writeAll ws).CellsSound := by
  induction ws generalizing s with
  | nil => exact hs
  | cons w ws ih =>
    exact ih (State.regWrite_sound hs (hw w List.mem_cons_self)) fun w' hw' => hw w' (List.mem_cons_of_mem _ hw')

theorem exec_sound {i : Instr} {s t : State} (hs : s.CellsSound) (h : exec i s = .next t) : t.CellsSound := by
  rcases exec_next_cases h with ⟨_, rfl⟩ | ⟨_, _, hwrite, rfl⟩
  · exact hs
  · obtain ⟨_, hwidths, _⟩ := (writePattern_next_iff _ _ _).1 hwrite
    exact State.writeAll_sound hs fun w hw => by simpa using List.all_eq_true.1 hwidths w hw

/-- Settles O52: a READ leaves every cell, a WRITE that completes stores values of the widths of its views. -/
theorem everyStepKeepsTheCellsSound : Obligations.EveryStepKeepsTheCellsSound := by
  unfold Obligations.EveryStepKeepsTheCellsSound
  intro s t hs h
  rcases step_next_cases h with ⟨_, rfl⟩ | ⟨_, rest, _, _, _, _, _, he⟩
  · exact hs
  · exact exec_sound (s := s.withProgram rest) hs he

/-! ### Other enables and other features -/

/-- The state with other enables in CONFIG and another FEATURES parameter. -/
def State.withEnables (s : State) (c : Cell 8) (f : BitVec 64) : State :=
  { s with config := c, params := { s.params with featuresValue := f } }

/-- An outcome with other enables and features in its next state. -/
def Result.withEnables (r : Result) (c : Cell 8) (f : BitVec 64) : Result :=
  match r with
  | .next t => .next (t.withEnables c f)
  | .fault e => .fault e
  | .refused e => .refused e

theorem loc_withEnables (s : State) (c : Cell 8) (f : BitVec 64) (d : Designator) :
    d.loc (s.withEnables c f).params = d.loc s.params := rfl

theorem overlap_withEnables (s : State) (c : Cell 8) (f : BitVec 64) :
    Designator.overlap (s.withEnables c f).params = Designator.overlap s.params := rfl

theorem anyOverlap_withEnables (s : State) (c : Cell 8) (f : BitVec 64) (ds : List Designator) :
    anyOverlap (s.withEnables c f).params ds = anyOverlap s.params ds := by
  induction ds with
  | nil => rfl
  | cons d ds ih => simp only [anyOverlap, overlap_withEnables, ih]

/-- A register that is no SPR has a cell that is no SPR's. -/
theorem file_ne_spr_of_loc {p : Params} {d : Designator} {l : Loc} (hd : d.file ≠ .spr) (hl : d.loc p = some l) :
    l.file ≠ .spr := by
  rcases Designator.file_of_loc hl with h | ⟨h, _⟩
  · exact h ▸ hd
  · exact absurd h hd

section
variable {s : State} {c : Cell 8} {f : BitVec 64}

theorem viewAt_withEnables {l : Loc} (hl : l.file ≠ .spr) : (s.withEnables c f).viewAt l = s.viewAt l := by
  cases l with
  | sp | fp | lr | flags | priority | config | spr => exact absurd rfl hl
  | _ => rfl

theorem cellAt_withEnables {l : Loc} (hl : l.file ≠ .spr) : (s.withEnables c f).cellAt l = s.cellAt l := by
  cases l with
  | sp | fp | lr | flags | priority | config | spr => exact absurd rfl hl
  | _ => rfl

theorem putAt_withEnables {l : Loc} (hl : l.file ≠ .spr) (v : Value) :
    (s.withEnables c f).putAt l v = (s.putAt l v).withEnables c f := by
  cases l with
  | sp | fp | lr | flags | priority | config | spr => exact absurd rfl hl
  | _ => cases v <;> rfl

theorem specified_withEnables {d : Designator} (hd : d.file ≠ .spr) :
    (s.withEnables c f).specified d = s.specified d := by
  simp only [State.specified, loc_withEnables]
  cases hl : d.loc s.params with
  | none => rfl
  | some l =>
    simp only [State.specifiedAt, cellAt_withEnables (file_ne_spr_of_loc hd hl)]
    rfl

theorem regRead_withEnables {d : Designator} (hd : d.file ≠ .spr) (k : Nat) :
    (s.withEnables c f).regRead d k = s.regRead d k := by
  simp only [State.regRead, State.view, loc_withEnables]
  cases hl : d.loc s.params with
  | none => rfl
  | some l =>
    simp only [viewAt_withEnables (file_ne_spr_of_loc hd hl)]
    rfl

theorem regWrite_withEnables {d : Designator} (hd : d.file ≠ .spr) (v : Value) :
    (s.withEnables c f).regWrite d v = (s.regWrite d v).withEnables c f := by
  simp only [State.regWrite, loc_withEnables]
  cases hl : d.loc s.params with
  | none => rfl
  | some l => exact putAt_withEnables (file_ne_spr_of_loc hd hl) v

theorem readAll_withEnables {ds : List Designator} (hds : ∀ d ∈ ds, d.file ≠ .spr) (k : Nat) :
    (s.withEnables c f).readAll ds k = s.readAll ds k := by
  induction ds generalizing k with
  | nil => rfl
  | cons d ds ih =>
    obtain ⟨hd, hds⟩ := List.forall_mem_cons.1 hds
    simp only [State.readAll, regRead_withEnables hd, ih hds]

theorem writeAll_withEnables {ws : List (Designator × Value)} (hws : ∀ w ∈ ws, w.1.file ≠ .spr) :
    (s.withEnables c f).writeAll ws = (s.writeAll ws).withEnables c f := by
  induction ws generalizing s with
  | nil => rfl
  | cons w ws ih =>
    obtain ⟨hw, hws⟩ := List.forall_mem_cons.1 hws
    simp only [State.writeAll, regWrite_withEnables hw, ih hws]

theorem readPattern_withEnables {ds : List Designator} (hds : ∀ d ∈ ds, d.file ≠ .spr) :
    readPattern ds (s.withEnables c f) = Result.withEnables (readPattern ds s) c f := by
  have hspecified : ds.all (s.withEnables c f).specified = ds.all s.specified :=
    Bool.eq_iff_iff.2 <| by
      simp only [List.all_eq_true]
      exact forall₂_congr fun d hd => by rw [specified_withEnables (hds d hd)]
  have htreatment : (s.withEnables c f).params.unspecifiedRead = s.params.unspecifiedRead := rfl
  simp only [readPattern, hspecified, htreatment, readAll_withEnables hds]
  split_ifs <;> rfl

theorem writePattern_withEnables {ws : List (Designator × Value)} (hws : ∀ w ∈ ws, w.1.file ≠ .spr) :
    writePattern ws (s.withEnables c f) = Result.withEnables (writePattern ws s) c f := by
  have hnone (p : Params) : ws.findSome? (writeRefusal p) = none :=
    List.findSome?_eq_none_iff.2 fun w hw => writeRefusal_of_file (hws w hw)
  simp only [writePattern, anyOverlap_withEnables, hnone, writeAll_withEnables hws]
  split_ifs <;> rfl

end

/-- Settles O58: what a READ and a WRITE of registers that are no SPRs do, with other enables and features. -/
theorem enablesAndFeaturesGateNoRegister : Obligations.EnablesAndFeaturesGateNoRegister := by
  unfold Obligations.EnablesAndFeaturesGateNoRegister
  intro s i c f hi
  have hexec : exec i (s.withEnables c f) = Result.withEnables (exec i s) c f := by
    rcases exec_eq_pattern i s with ⟨hw, he⟩ | ⟨hw, hd, he⟩
    · rw [exec_of_reads hw, he, readPattern_withEnables hi]
    · have hws : ∀ w ∈ i.writes, w.1.file ≠ .spr := fun w hw => hi w.1 (hd ▸ List.mem_map_of_mem hw)
      rw [exec_of_writes hw, he, writePattern_withEnables hws]
  refine hexec.trans ?_
  cases exec i s <;> rfl

end Sys2Proof.Machine
